-- ==== Sys2Proof/Word.lean ====
section
/-!
DEFINITION. The two word types of the engine: a byte and a 16-bit unsigned value (R9).
-/

namespace Sys2Proof

/-- An unsigned 8-bit value, `u8` of R9: the unit of exchange with the transport (R50). -/
abbrev Byte := BitVec 8

/-- An unsigned 16-bit value, `u16` of R9: dataId, CRC, `cfg.bufCap`, the capacities. -/
abbrev Half := BitVec 16

end Sys2Proof
end

