-- ==== Sys2Proof/Syntax.lean ====
section
/-!
DEFINITION. The names of the interface (Modes, statuses, reply outcomes) and the instructions: one constructor of
`Instr` for each row of opcode_table.json.
-/

namespace Sys2Proof

/-- The four framing Modes (R70, R71), in the order of their codes. -/
inductive Mode where
  | full
  | startOnly
  | delimCrc
  | noCrc
deriving DecidableEq, Repr

/-- The status kinds of R84. Codes 9..15 are reserved and never produced, so they have no name. -/
inductive Status where
  | ok
  | message
  | noMessage
  | corruptFrame
  | frameTooLarge
  | misaligned
  | txFull
  | notOpen
  | badCommand
deriving DecidableEq, Repr

/-- The reply outcomes of R83. -/
inductive ReplyOutcome where
  /-- no reply was due -/
  | none
  /-- the reply frame was written whole to TX -/
  | sent
  /-- the reply was due, TX lacked room, and nothing was written -/
  | txFull
deriving DecidableEq, Repr

/-- The four encodings an instruction can stand in (the `format` column of opcode_table.json). -/
inductive Format where
  /-- a command of the client interface (R79) -/
  | command
  /-- a wire frame of the given Mode (R70, R72) -/
  | frame (m : Mode)
  /-- a dataId action of the dispatcher (R76, R77) -/
  | dataId
  /-- the acknowledge request in a flags byte (R78) -/
  | flags
deriving DecidableEq, Repr

/-- The rows of opcode_table.json. A length operand is the length of the list it counts, so it is no field. -/
inductive Instr where
  /-- OPEN: `0x01 MM PP` (R180) -/
  | openSession (m : Mode) (maxPayload : Byte)
  /-- SET_BUFFER_SIZE: `0x02 NN NN` (R181) -/
  | setBufferSize (n : Half)
  /-- GET_BUFFER_SIZE: `0x03` (R182) -/
  | getBufferSize
  /-- CHECKSUM: `0x10 LL LL d…` (R100) -/
  | checksum (d : List Byte)
  /-- ENCODE: `0x11 MM II II FF LL p…` (R110) -/
  | encode (m : Mode) (dataId : Half) (flags : Byte) (payload : List Byte)
  /-- DECODE: `0x12 MM LL LL b…` (R115) -/
  | decode (m : Mode) (frame : List Byte)
  /-- POLL: `0x20` (R130) -/
  | poll
  /-- SEND: `0x21 II II FF LL p…` (R183) -/
  | send (dataId : Half) (flags : Byte) (payload : List Byte)
  /-- RESERVED_COMMAND: any command byte but the eight (R81) -/
  | reservedCommand (code : Byte)
  /-- FRAME_FULL (R70, R72) -/
  | frameFull (flags : Byte) (dataId : Half) (crc : Half) (payload : List Byte)
  /-- FRAME_START_ONLY (R70, R72) -/
  | frameStartOnly (flags : Byte) (dataId : Half) (crc : Half) (payload : List Byte)
  /-- FRAME_DELIM_CRC (R70, R72) -/
  | frameDelimCrc (flags : Byte) (dataId : Half) (crc : Half) (payload : List Byte)
  /-- FRAME_NO_CRC (R70, R72): the frame carries no CRC field -/
  | frameNoCrc (flags : Byte) (dataId : Half) (payload : List Byte)
  /-- SYS_NONE: dataId 0x0000, the no-message sentinel (R76, R139) -/
  | sysNone
  /-- PING: dataId 0x0001 (R162) -/
  | ping
  /-- PING_REPLY: dataId 0x0002 (R163) -/
  | pingReply
  /-- SUBSCRIBE: dataId 0x0003 (R164) -/
  | subscribe
  /-- UNSUBSCRIBE: dataId 0x0004 (R165) -/
  | unsubscribe
  /-- FORCE_UNSUBSCRIBE: dataId 0x0005 (R166) -/
  | forceUnsubscribe
  /-- ACKNOWLEDGE: dataId 0x0006 (R167) -/
  | acknowledge
  /-- APPLICATION: dataId 0x0007..0xFFFF (R168) -/
  | application (dataId : Half)
  /-- ACK_FLAG: a flags byte with bit 0 set; `x` is its bits 7:1 (R78, R161) -/
  | ackFlag (x : BitVec 7)
deriving DecidableEq, Repr

end Sys2Proof
end

