-- ==== Sys2Proof/Machine/Flags.lean ====
section
/-!
DEFINITION. The message flags byte (R34, R78, R171) and the codes of statuses and reply outcomes (R83, R84).
-/

namespace Sys2Proof.Machine

/-- Flags bit 0: acknowledge requested (R34, R78; the test is on bit 0, R171). -/
abbrev ackRequested (flags : Byte) : Bool := flags.getLsbD 0

/-- Flags bits 7:1, which the engine carries and never interprets (R34). -/
def flagsHigh (flags : Byte) : BitVec 7 := flags.extractLsb' 1 7

/-- The flags byte `xxxxxxx1` (R78). -/
def flagsWithAck (x : BitVec 7) : Byte := x ++ 1#1

/-- The 4-bit status code (R84). -/
def statusCode : Status → BitVec 4
  | .ok => 0#4
  | .message => 1#4
  | .noMessage => 2#4
  | .corruptFrame => 3#4
  | .frameTooLarge => 4#4
  | .misaligned => 5#4
  | .txFull => 6#4
  | .notOpen => 7#4
  | .badCommand => 8#4

/-- The reply outcome code (R83). -/
def replyCode : ReplyOutcome → Nat
  | .none => 0
  | .sent => 1
  | .txFull => 2

end Sys2Proof.Machine
end

