-- ==== Sys2Proof/WellFormed.lean ====
section
/-!
DEFINITION. Which instructions have an encoding: the bounds their length operands and code ranges set.
-/

namespace Sys2Proof

/-- The eight command codes of R79. -/
def commandCodes : List Byte := [0x01#8, 0x02#8, 0x03#8, 0x10#8, 0x11#8, 0x12#8, 0x20#8, 0x21#8]

/-- A payload that fits the 8-bit length field (R8, R73). -/
abbrev fitsU8 (p : List Byte) : Prop := p.length ≤ 255

/-- A byte sequence that fits a 16-bit length operand (R79). -/
abbrev fitsU16 (p : List Byte) : Prop := p.length ≤ 65535

/-- The well-formedness of an instruction. The Mode operand needs no check: every Mode code is legal (R71). -/
def Instr.wf : Instr → Bool
  | .openSession _ _ => true
  | .setBufferSize _ => true
  | .getBufferSize => true
  | .checksum d => decide (fitsU16 d)
  | .encode _ _ _ p => decide (fitsU8 p)
  | .decode _ b => decide (fitsU16 b)
  | .poll => true
  | .send _ _ p => decide (fitsU8 p)
  | .reservedCommand c => !commandCodes.contains c
  | .frameFull _ _ _ p => decide (fitsU8 p)
  | .frameStartOnly _ _ _ p => decide (fitsU8 p)
  | .frameDelimCrc _ _ _ p => decide (fitsU8 p)
  | .frameNoCrc _ _ p => decide (fitsU8 p)
  | .sysNone => true
  | .ping => true
  | .pingReply => true
  | .subscribe => true
  | .unsubscribe => true
  | .forceUnsubscribe => true
  | .acknowledge => true
  | .application i => decide (7 ≤ i.toNat)
  | .ackFlag _ => true

end Sys2Proof
end

