-- ==== Sys2Proof/Machine/Layout.lean ====
section
/-!
DEFINITION. The wire constants (R8), the Mode codes and properties (R12, R70, R71) and the field offsets (R72).
-/

namespace Sys2Proof.Machine

/-- `START`, the start byte (R8). -/
def startByte : Byte := 0xFE#8

/-- `END`, the end byte (R8). -/
def endByte : Byte := 0xEF#8

/-- The checksum seed (R8, R100). -/
def checksumSeed : Half := 0xFFFF#16

/-- The 2-bit Mode code (R71). -/
def modeCode : Mode → BitVec 2
  | .full => 0#2
  | .startOnly => 1#2
  | .delimCrc => 2#2
  | .noCrc => 3#2

/-- The Mode of a 2-bit code; every code is legal (R21, R71). -/
def modeOfCode (c : BitVec 2) : Mode :=
  if c = 0#2 then .full else if c = 1#2 then .startOnly else if c = 2#2 then .delimCrc else .noCrc

/-- `hasStart`: true for Full and Start-only (R70). -/
def hasStart : Mode → Bool
  | .full => true
  | .startOnly => true
  | .delimCrc => false
  | .noCrc => false

/-- `hasEnd`: true for Full only (R70). -/
def hasEnd : Mode → Bool
  | .full => true
  | .startOnly => false
  | .delimCrc => false
  | .noCrc => false

/-- `hasCrc`: true for all Modes but Delimiter-less (no CRC) (R70). -/
def hasCrc : Mode → Bool
  | .full => true
  | .startOnly => true
  | .delimCrc => true
  | .noCrc => false

/-- `hl`, the header length (R70). -/
def hl : Mode → Nat
  | .full => 8
  | .startOnly => 7
  | .delimCrc => 6
  | .noCrc => 4

/-- `offLen`: 1 after a start byte, else 0 (R72). -/
def offLen (m : Mode) : Nat := if hasStart m then 1 else 0

/-- `offFlags` (R72). -/
def offFlags (m : Mode) : Nat := offLen m + 1

/-- `offId`: the dataId's most significant byte; the other follows (R72). -/
def offId (m : Mode) : Nat := offLen m + 2

/-- `offCrc`: the CRC's most significant byte, in a Mode that has one; the other follows (R72). -/
def offCrc (m : Mode) : Nat := offLen m + 4

/-- `offEnd`: the end byte is the last header byte (R72, C1). -/
def offEnd (m : Mode) : Nat := hl m - 1

end Sys2Proof.Machine
end

