-- ==== Sys2Proof/Machine/Operands.lean ====
section
/-!
DEFINITION. Operand assembly: big-endian u16 values (R50, R80), reading and writing byte sequences at an offset (R10),
the mode byte and the length operands (R80), and a wire frame's bytes from its fields (R72, R110).
-/

namespace Sys2Proof.Machine

/-- `v[15:8]`, the byte sent first (R50). -/
def hiByte (v : Half) : Byte := v.extractLsb' 8 8

/-- `v[7:0]`, the byte sent second (R50). -/
def loByte (v : Half) : Byte := v.extractLsb' 0 8

/-- `(b0 << 8) | b1`, where b0 is the earlier byte (R80). -/
def be16 (b0 b1 : Byte) : Half := b0 ++ b1

/-- The two bytes of a u16 in wire order (R50). -/
def beBytes (v : Half) : List Byte := [hiByte v, loByte v]

/-- Byte `k` of a sequence. Callers have checked `k < |s|`; beyond the end it is 0. -/
def byteAt (s : List Byte) (k : Nat) : Byte := s.getD k 0#8

/-- `MemRead(off, 2)` of a byte sequence: big-endian (R10). -/
def half16At (s : List Byte) (off : Nat) : Half := be16 (byteAt s off) (byteAt s (off + 1))

/-- A mode byte `000000mm`; bits 7:2 must be zero (R80). -/
def modeByte (m : Mode) : Byte := (modeCode m).zeroExtend 8

/-- The Mode of a mode byte, or none when bits 7:2 are not all zero (R80, R81). -/
def modeOfByte (b : Byte) : Option Mode :=
  if b.extractLsb' 2 6 = 0#6 then some (modeOfCode (b.extractLsb' 0 2)) else none

/-- A u8 length operand: the count of the bytes that follow (R80). -/
def len8 (p : List Byte) : Byte := BitVec.ofNat 8 p.length

/-- A u16 length operand, big-endian (R80). -/
def len16 (p : List Byte) : List Byte := beBytes (BitVec.ofNat 16 p.length)

/-- A wire frame from its fields, in the order the encoder writes them (R72, R73, R110): start byte, length, flags, dataId
(MSB first), CRC (MSB first, R111), end byte, payload. -/
def frameBytes (m : Mode) (flags : Byte) (dataId crc : Half) (payload : List Byte) : List Byte :=
  (if hasStart m then [startByte] else [])
    ++ [len8 payload, flags, hiByte dataId, loByte dataId]
    ++ (if hasCrc m then [hiByte crc, loByte crc] else [])
    ++ (if hasEnd m then [endByte] else [])
    ++ payload

end Sys2Proof.Machine
end

