-- ==== Sys2Proof/Decode.lean ====
section
/-!
DEFINITION. Decoding, total on any bytes and rejecting by name, and after it the encoder, both from the encodings of
30_encoding.md: commands (R79..R81), wire frames (R70, R72, R73), dataIds (R76, R77) and the flags byte (R78).
-/

namespace Sys2Proof

open Sys2Proof.Machine

/-- Why bytes are no instruction. A command rejected so is answered BAD_COMMAND (R81). -/
inductive DecodeError where
  /-- no byte at all (log 6) -/
  | empty
  /-- a mode byte with bits 7:2 not zero (R81) -/
  | modeBits
  /-- fewer bytes than the operands need (R81) -/
  | short
  /-- more bytes than the total length (log 6) -/
  | surplus
  /-- a frame whose first byte is not the start byte (R72) -/
  | noStartByte
  /-- a FULL frame whose byte 7 is not the end byte (R72) -/
  | noEndByte
  /-- a flags byte with bit 0 clear: no acknowledge is requested (R78) -/
  | noAckRequest
deriving DecidableEq, Repr

/-- What follows a length operand: exactly `n` bytes (R80, R81; surplus bytes: log 6). -/
def takeExactly (n : Nat) (bs : List Byte) : Except DecodeError (List Byte) :=
  if bs.length < n then .error .short else if n < bs.length then .error .surplus else .ok bs

/-- The operands of OPEN: `MM PP` (R79). -/
def decodeOpen : List Byte → Except DecodeError Instr
  | [mm, pp] =>
    match modeOfByte mm with
    | none => .error .modeBits
    | some m => .ok (.openSession m pp)
  | _ :: _ :: _ :: _ => .error .surplus
  | _ => .error .short

/-- The operands of SET_BUFFER_SIZE: `NN NN` (R79). -/
def decodeSetBufferSize : List Byte → Except DecodeError Instr
  | [n1, n0] => .ok (.setBufferSize (be16 n1 n0))
  | _ :: _ :: _ :: _ => .error .surplus
  | _ => .error .short

/-- A command without operands (R79, R81). -/
def decodeBare (i : Instr) : List Byte → Except DecodeError Instr
  | [] => .ok i
  | _ :: _ => .error .surplus

/-- The operands of CHECKSUM: `LL LL d…` (R79). -/
def decodeChecksum : List Byte → Except DecodeError Instr
  | l1 :: l0 :: d => (takeExactly (be16 l1 l0).toNat d).map .checksum
  | _ => .error .short

/-- The operands of ENCODE: `MM II II FF LL p…` (R79). -/
def decodeEncode : List Byte → Except DecodeError Instr
  | mm :: i1 :: i0 :: ff :: ll :: p =>
    match modeOfByte mm with
    | none => .error .modeBits
    | some m => (takeExactly ll.toNat p).map (.encode m (be16 i1 i0) ff)
  | _ => .error .short

/-- The operands of DECODE: `MM LL LL b…` (R79). -/
def decodeDecode : List Byte → Except DecodeError Instr
  | mm :: l1 :: l0 :: b =>
    match modeOfByte mm with
    | none => .error .modeBits
    | some m => (takeExactly (be16 l1 l0).toNat b).map (.decode m)
  | _ => .error .short

/-- The operands of SEND: `II II FF LL p…` (R79). -/
def decodeSend : List Byte → Except DecodeError Instr
  | i1 :: i0 :: ff :: ll :: p => (takeExactly ll.toNat p).map (.send (be16 i1 i0) ff)
  | _ => .error .short

/-- A command, decoded from its first byte (R79, R184). -/
def decodeCommand : List Byte → Except DecodeError Instr
  | [] => .error .empty
  | c :: ops =>
    if c = 0x01#8 then decodeOpen ops
    else if c = 0x02#8 then decodeSetBufferSize ops
    else if c = 0x03#8 then decodeBare .getBufferSize ops
    else if c = 0x10#8 then decodeChecksum ops
    else if c = 0x11#8 then decodeEncode ops
    else if c = 0x12#8 then decodeDecode ops
    else if c = 0x20#8 then decodeBare .poll ops
    else if c = 0x21#8 then decodeSend ops
    else decodeBare (.reservedCommand c) ops

/-- The frame row of a Mode; a NO_CRC frame has no CRC field (R70). -/
def frameInstr (m : Mode) (flags : Byte) (dataId crc : Half) (payload : List Byte) : Instr :=
  match m with
  | .full => .frameFull flags dataId crc payload
  | .startOnly => .frameStartOnly flags dataId crc payload
  | .delimCrc => .frameDelimCrc flags dataId crc payload
  | .noCrc => .frameNoCrc flags dataId payload

/-- A wire frame of Mode `m`: its length is found from its header alone (R73, R74). -/
def decodeFrame (m : Mode) (bs : List Byte) : Except DecodeError Instr :=
  if bs.length < hl m then .error .short
  else if hasStart m && (byteAt bs 0 != startByte) then .error .noStartByte
  else if hasEnd m && (byteAt bs (offEnd m) != endByte) then .error .noEndByte
  else
    (takeExactly (byteAt bs (offLen m)).toNat (bs.drop (hl m))).map
      (frameInstr m (byteAt bs (offFlags m)) (half16At bs (offId m)) (half16At bs (offCrc m)))

/-- The dispatcher action of a dataId (R76, R77). -/
def decodeDataId (i : Half) : Instr :=
  if i = 0x0000#16 then .sysNone
  else if i = 0x0001#16 then .ping
  else if i = 0x0002#16 then .pingReply
  else if i = 0x0003#16 then .subscribe
  else if i = 0x0004#16 then .unsubscribe
  else if i = 0x0005#16 then .forceUnsubscribe
  else if i = 0x0006#16 then .acknowledge
  else .application i

/-- The acknowledge request of a flags byte (R78). -/
def decodeFlags (f : Byte) : Except DecodeError Instr :=
  if ackRequested f then .ok (.ackFlag (flagsHigh f)) else .error .noAckRequest

/-- The decoder: the bytes of an instruction of the given format. -/
def decode : Format → List Byte → Except DecodeError Instr
  | .command, bs => decodeCommand bs
  | .frame m, bs => decodeFrame m bs
  | .dataId, [b1, b0] => .ok (decodeDataId (be16 b1 b0))
  | .dataId, _ :: _ :: _ :: _ => .error .surplus
  | .dataId, _ => .error .short
  | .flags, [f] => decodeFlags f
  | .flags, _ :: _ :: _ => .error .surplus
  | .flags, [] => .error .empty

/-- The format of an instruction: the `format` column of opcode_table.json. -/
def Instr.format : Instr → Format
  | .openSession _ _ => .command
  | .setBufferSize _ => .command
  | .getBufferSize => .command
  | .checksum _ => .command
  | .encode _ _ _ _ => .command
  | .decode _ _ => .command
  | .poll => .command
  | .send _ _ _ => .command
  | .reservedCommand _ => .command
  | .frameFull _ _ _ _ => .frame .full
  | .frameStartOnly _ _ _ _ => .frame .startOnly
  | .frameDelimCrc _ _ _ _ => .frame .delimCrc
  | .frameNoCrc _ _ _ => .frame .noCrc
  | .sysNone => .dataId
  | .ping => .dataId
  | .pingReply => .dataId
  | .subscribe => .dataId
  | .unsubscribe => .dataId
  | .forceUnsubscribe => .dataId
  | .acknowledge => .dataId
  | .application _ => .dataId
  | .ackFlag _ => .flags

/-- The encoder: the bytes of an instruction, from R79 (commands), R72 (frames), R76 and R77 (dataIds), R78 (flags). -/
def encode : Instr → List Byte
  | .openSession m pp => [0x01#8, modeByte m, pp]
  | .setBufferSize n => 0x02#8 :: beBytes n
  | .getBufferSize => [0x03#8]
  | .checksum d => 0x10#8 :: (len16 d ++ d)
  | .encode m i f p => [0x11#8, modeByte m, hiByte i, loByte i, f, len8 p] ++ p
  | .decode m b => [0x12#8, modeByte m] ++ len16 b ++ b
  | .poll => [0x20#8]
  | .send i f p => [0x21#8, hiByte i, loByte i, f, len8 p] ++ p
  | .reservedCommand c => [c]
  | .frameFull f i c p => frameBytes .full f i c p
  | .frameStartOnly f i c p => frameBytes .startOnly f i c p
  | .frameDelimCrc f i c p => frameBytes .delimCrc f i c p
  | .frameNoCrc f i p => frameBytes .noCrc f i 0#16 p
  | .sysNone => [0x00#8, 0x00#8]
  | .ping => [0x00#8, 0x01#8]
  | .pingReply => [0x00#8, 0x02#8]
  | .subscribe => [0x00#8, 0x03#8]
  | .unsubscribe => [0x00#8, 0x04#8]
  | .forceUnsubscribe => [0x00#8, 0x05#8]
  | .acknowledge => [0x00#8, 0x06#8]
  | .application i => beBytes i
  | .ackFlag x => [flagsWithAck x]

/-- The `length_bytes` column of opcode_table.json. -/
def Instr.lengthBytes : Instr → Nat
  | .openSession _ _ => 3
  | .setBufferSize _ => 3
  | .getBufferSize => 1
  | .checksum d => 3 + d.length
  | .encode _ _ _ p => 6 + p.length
  | .decode _ b => 4 + b.length
  | .poll => 1
  | .send _ _ p => 5 + p.length
  | .reservedCommand _ => 1
  | .frameFull _ _ _ p => 8 + p.length
  | .frameStartOnly _ _ _ p => 7 + p.length
  | .frameDelimCrc _ _ _ p => 6 + p.length
  | .frameNoCrc _ _ p => 4 + p.length
  | .sysNone => 2
  | .ping => 2
  | .pingReply => 2
  | .subscribe => 2
  | .unsubscribe => 2
  | .forceUnsubscribe => 2
  | .acknowledge => 2
  | .application _ => 2
  | .ackFlag _ => 1

/-! ### Words of opcode_table.json (log 11) -/

/-- The bytes of a table word: bit 0 is the least significant bit of the first byte. -/
def tableBytes (nbits w : Nat) : List Byte :=
  (List.range ((nbits + 7) / 8)).map fun k => BitVec.ofNat 8 (w / 2 ^ (8 * k))

/-- The format of the row whose word has these bits. A word under one byte is the flags row's single fixed bit; two bytes
are a dataId; eight and seven bytes from a start byte, and six and four bytes that are not the fixed part of ENCODE and
DECODE, are the headers of the four frames; every other word is a command (log 11). -/
def tableFormat (nbits w : Nat) : Format :=
  let first := BitVec.ofNat 8 w
  if nbits < 8 then .flags
  else if nbits = 16 then .dataId
  else if nbits = 64 ∧ first = startByte then .frame .full
  else if nbits = 56 ∧ first = startByte then .frame .startOnly
  else if nbits = 48 ∧ first ≠ 0x11#8 then .frame .delimCrc
  else if nbits = 32 ∧ first ≠ 0x12#8 then .frame .noCrc
  else .command

/-- The total length of the command whose leading bytes are `bs`, with zeros for the bytes not given (R79). -/
def commandLength (bs : List Byte) : Nat :=
  let c := byteAt bs 0
  if c = 0x01#8 then 3
  else if c = 0x02#8 then 3
  else if c = 0x10#8 then 3 + (half16At bs 1).toNat
  else if c = 0x11#8 then 6 + (byteAt bs 5).toNat
  else if c = 0x12#8 then 4 + (half16At bs 2).toNat
  else if c = 0x21#8 then 5 + (byteAt bs 4).toNat
  else 1

/-- The bytes with zeros appended up to `n` bytes. -/
def zeroPad (n : Nat) (bs : List Byte) : List Byte := bs ++ List.replicate (n - bs.length) 0#8

/-- The bytes of the instruction a table word stands for, in the order they are sent: every bit above the word is zero,
up to the length the instruction itself declares. A dataId is one 16-bit value, sent MSB first (R50). -/
def tableInstrBytes (nbits w : Nat) : List Byte :=
  match tableFormat nbits w with
  | .command => let bs := tableBytes nbits w; zeroPad (commandLength bs) bs
  | .frame m => let bs := tableBytes nbits w; zeroPad (hl m + (byteAt bs (offLen m)).toNat) bs
  | .dataId => beBytes (BitVec.ofNat 16 w)
  | .flags => [BitVec.ofNat 8 w]

/-- The instruction this decoder reads from a word numbered as opcode_table.json numbers it. -/
def decodeTableWord (nbits w : Nat) : Option Instr :=
  match decode (tableFormat nbits w) (tableInstrBytes nbits w) with
  | .ok i => some i
  | .error _ => none

end Sys2Proof
end

