-- ==== Sys2Proof/Machine/Checksum.lean ====
section
/-!
DEFINITION. The integrity engine's checksum (R100, R101), written as the rule's loop.
-/

namespace Sys2Proof.Machine

/-- One iteration of R100's loop: the 16-bit accumulator folded with one byte. -/
def checksumStep (acc : Half) (d : Byte) : Half :=
  let x0 : Byte := acc.extractLsb' 8 8 ^^^ d
  let x : Byte := x0 ^^^ (x0 >>> 4)
  let z : Half := x.zeroExtend 16
  (acc <<< 8) ^^^ (z <<< 12) ^^^ (z <<< 5) ^^^ z

/-- R100's loop over the bytes from a given accumulator. -/
def checksumFrom (acc : Half) : List Byte → Half
  | [] => acc
  | b :: bs => checksumFrom (checksumStep acc b) bs

/-- `Checksum(d)` (R100): the accumulator starts at the seed, and no final XOR, reflection or swap is applied. -/
def checksum (d : List Byte) : Half := checksumFrom checksumSeed d

end Sys2Proof.Machine
end

