-- ==== Sys2Proof/Config.lean ====
section
/-!
DEFINITION. The implementation parameters of R7. They are fixed for the life of an instance; a state carries them
as data, so a statement about every state holds for every value of them (log 2).
-/

namespace Sys2Proof

/-- The capacities of R7. `rxCap` and `bufMax` are 16-bit words because OPEN stores their minimum in `cfg.bufCap`
(R180); `txCap` has the same range. -/
structure Params where
  /-- `RX_CAP`, capacity of the transport's receive ring buffer, 1..65535. -/
  rxCap : Half
  /-- `TX_CAP`, capacity of the transport's write buffer, 1..65535. -/
  txCap : Half
  /-- `BUF_MAX`, size of the pre-allocated frame buffer FB, 0..65535. -/
  bufMax : Half
deriving DecidableEq, Repr

/-- The ranges of R7: the two queue capacities are at least 1. -/
abbrev Params.wf (p : Params) : Prop := 1 ≤ p.rxCap.toNat ∧ 1 ≤ p.txCap.toNat

/-- The parameters that 95_test_vectors.md uses unless a vector says otherwise.
DESIGN CHOICE, unsafe (log 2): the spec fixes no value. -/
def Params.vectors : Params := { rxCap := 64#16, txCap := 64#16, bufMax := 300#16 }

end Sys2Proof
end

