-- ==== Sys2Proof/Machine/Memory.lean ====
section
/-!
DEFINITION. Byte memory in one canonical form: the engine's only random-access array, the frame buffer FB (R28, R64), is
held so. A byte that nothing has written reads as 0 (DESIGN CHOICE, log 3: FB's contents at reset are unspecified, R37).
-/

namespace Sys2Proof.Machine

/-- Listed bytes by address. -/
abbrev Memory := List Host.Cell

/-- What an unlisted address reads as (log 3). -/
def Memory.unlisted : Byte := 0#8

/-- The canonical form: addresses strictly rise and no entry equals what an unlisted address reads as. -/
abbrev Memory.wf (m : Memory) : Prop :=
  m.Pairwise (fun a b => a.1 < b.1) ∧ ∀ c ∈ m, c.2 ≠ Memory.unlisted

/-- Every listed address is below `n`: the array has `n` bytes. -/
abbrev Memory.below (n : Nat) (m : Memory) : Prop := ∀ c ∈ m, c.1 < n

/-- One byte. -/
def Memory.read : Memory → Nat → Byte
  | [], _ => Memory.unlisted
  | c :: m, a => if c.1 = a then c.2 else Memory.read m a

/-- Write one byte, keeping the canonical form. -/
def Memory.write : Memory → Nat → Byte → Memory
  | [], a, b => if b = Memory.unlisted then [] else [(a, b)]
  | c :: m, a, b =>
    if c.1 < a then c :: Memory.write m a b
    else
      let rest := if c.1 = a then m else c :: m
      if b = Memory.unlisted then rest else (a, b) :: rest

/-- Write a run of bytes at rising addresses from `a`. -/
def Memory.writeBytes : Memory → Nat → List Byte → Memory
  | m, _, [] => m
  | m, a, b :: bs => Memory.writeBytes (Memory.write m a b) (a + 1) bs

/-- The `n` bytes at rising addresses from `a`. -/
def Memory.readBytes (m : Memory) (a : Nat) : Nat → List Byte
  | 0 => []
  | n + 1 => Memory.read m a :: Memory.readBytes m (a + 1) n

end Sys2Proof.Machine
end

