-- ==== Sys2Proof/Machine/State.lean ====
section
/-!
DEFINITION. The state of one engine instance with the transport state it sees (10_state.md), as plain data; the reasons a
step can stop; the state after reset (R37, R230).
-/

namespace Sys2Proof.Machine

/-- The assembler state `asm` (R25): Idle is 0, Syncing is 1. -/
inductive Asm where
  | idle
  | syncing
deriving DecidableEq, Repr

/-- The configuration registers (R20 to R23). -/
structure Cfg where
  /-- `cfg.opened` (R20) -/
  opened : Bool
  /-- `cfg.mode` (R21) -/
  mode : Mode
  /-- `cfg.maxPayload` (R22) -/
  maxPayload : Byte
  /-- `cfg.bufCap` (R23) -/
  bufCap : Half
deriving DecidableEq, Repr

/-- A decoded message: the POLL and DECODE fields of R30. -/
structure Message where
  dataId : Half
  flags : Byte
  size : Byte
  payload : List Byte
deriving DecidableEq, Repr

/-- ABSENT (R30, R115): what the POLL and DECODE fields are when the status is not MESSAGE. -/
def Message.absent : Message := { dataId := 0#16, flags := 0#8, size := 0#8, payload := [] }

/-- The response record of an operation (R30). A field an operation does not list is absent from its constructor. -/
inductive Response where
  /-- OPEN, SET_BUFFER_SIZE, SEND; GET_BUFFER_SIZE answered NOT_OPEN (log 15); a rejected command,
  whatever its operation (log 19) -/
  | plain (status : Status)
  /-- GET_BUFFER_SIZE with status OK -/
  | bufferSize (bytes : Half)
  /-- CHECKSUM, status OK -/
  | crc (crc : Half)
  /-- ENCODE, status OK -/
  | frame (frame : List Byte)
  /-- DECODE -/
  | decoded (status : Status) (r : Message)
  /-- POLL -/
  | polled (status : Status) (r : Message) (ack reply : ReplyOutcome)
deriving DecidableEq, Repr

/-- What the outside world does between operations, or the client issues (log 1). -/
inductive Input where
  /-- the client issues a command: its bytes (R79) -/
  | command (bytes : List Byte)
  /-- the receive line delivers a byte: `RxArrive(b)` (R59) -/
  | rxArrive (b : Byte)
  /-- the transmit line takes a byte: `TxDrain()` (R60) -/
  | txDrain
  /-- power-on reset of this instance (R230) -/
  | powerOn
  /-- something other than the engine reads the receive queue (R57, R247) -/
  | foreignRead
deriving DecidableEq, Repr

/-- One engine instance and the transport it is wired to. -/
structure State where
  /-- the instance's parameters (R7); no step writes them -/
  par : Params
  /-- the configuration registers (R20 to R23) -/
  cfg : Cfg
  /-- the assembler state (R25) -/
  asm : Asm
  /-- FB, the frame buffer (R28) -/
  fb : Memory
  /-- RX, oldest byte first (R31) -/
  rx : List Byte
  /-- TX, oldest byte first (R32) -/
  tx : List Byte
  /-- the message `r` that Decode hands to Dispatch (R130, R160); written before it is read in every POLL (log 5) -/
  msg : Message
  /-- Dispatch's local `ack` (R160); written before it is read in every POLL (log 5) -/
  ack : ReplyOutcome
  /-- the response the step just made returned to the client; the engine never reads it (R30, log 4) -/
  resp : Option Response
  /-- what happens next, oldest first (log 1) -/
  inputs : List Input
deriving DecidableEq, Repr

/-- The model's faults. The engine has no trap (R200): each is a misuse of a primitive that no rule makes (R53, R54, R56,
R117; log 14). All are safe: the model stops where nothing is said, in states that no run reaches. -/
inductive Fault where
  /-- `RxPeek(k)` with `k >= RxAvail()` (R53), raised by POLL. Safe. -/
  | rxPeekPastEnd
  /-- `RxRead(n)` with `n > RxAvail()` (R54), raised by POLL. Safe. -/
  | rxReadPastEnd
  /-- `TxWrite(s)` with `|s| > TxFree()` (R56), raised by SEND and the dispatcher's replies. Safe. -/
  | txWriteOverflow
  /-- a write to FB past its `BUF_MAX` bytes (R28, R117), raised by a frame's consumption. Safe. -/
  | frameBufferOverflow
deriving DecidableEq, Repr

/-- The model's refusals. -/
inductive Refusal where
  /-- an instruction without a meaning, raised by exec's refused arms. Safe. -/
  | notModelled (mnemonic : String)
  /-- something else reads the session's receive queue, raised by the step: a configuration outside the spec that a model
  refuses (R57, R247, D33; log 13). Safe. -/
  | sharedReceiveQueue
deriving DecidableEq, Repr

/-- The configuration registers after reset (R37). -/
def Cfg.reset : Cfg := { opened := false, mode := .full, maxPayload := 0#8, bufCap := 0#16 }

/-- The state of an instance with parameters `p` when power comes on, the transport's queues holding `rx0` and `tx0` (R7,
R37, R230). FB holds its unlisted bytes (DESIGN CHOICE, log 3). -/
def State.powerUp (p : Params) (rx0 tx0 : List Byte) : State :=
  { par := p
    cfg := Cfg.reset
    asm := .idle
    fb := []
    rx := rx0
    tx := tx0
    msg := Message.absent
    ack := .none
    resp := none
    inputs := [] }

/-- The machine right after reset. Its parameters and the transport's contents are those of 95_test_vectors.md
(DESIGN CHOICE, log 2). -/
def State.reset : State := State.powerUp Params.vectors [] []

end Sys2Proof.Machine
end

