-- ==== Sys2Proof/Machine/Ops.lean ====
section
/-!
DEFINITION. The named operations over the state: one update per field, the transport primitives (R52 to R56), the frame
buffer's, the one shared `raise Status` (R11, R209), and the registers by their numbers (R35).
-/

namespace Sys2Proof.Machine

/-- The outcome of an operation that may misuse a primitive. -/
abbrev Res (α : Type) := Host.Outcome α Fault Refusal

/-- Go on with a result, or stop where it stopped. -/
def andThen {α β : Type} (r : Res α) (k : α → Res β) : Res β :=
  match r with
  | .next a => k a
  | .fault f => .fault f
  | .refused f => .refused f

/-! ### Updates, one per field -/

def State.setCfg (s : State) (v : Cfg) : State := { s with cfg := v }
def State.setAsm (s : State) (v : Asm) : State := { s with asm := v }
def State.setFb (s : State) (v : Memory) : State := { s with fb := v }
def State.setRx (s : State) (v : List Byte) : State := { s with rx := v }
def State.setTx (s : State) (v : List Byte) : State := { s with tx := v }
def State.setMsg (s : State) (v : Message) : State := { s with msg := v }
def State.setAck (s : State) (v : ReplyOutcome) : State := { s with ack := v }
def State.setResp (s : State) (v : Option Response) : State := { s with resp := v }
def State.setInputs (s : State) (v : List Input) : State := { s with inputs := v }

/-! ### Responses -/

/-- The operation ends with response `r` (R11). -/
def State.respond (s : State) (r : Response) : State := s.setResp (some r)

/-- `raise Status(kind)` of an operation whose response has no further field (R11, R209): writes made before it stand, no
other state changes. -/
def raiseStatus (k : Status) (s : State) : Res State := .next (s.respond (.plain k))

/-- `raise Status(kind)` inside POLL: the ABSENT fields with `ack = reply = NONE` (R11, R130). -/
def raisePoll (k : Status) (s : State) : Res State :=
  .next (s.respond (.polled k Message.absent .none .none))

/-! ### Transport primitives -/

/-- `RxAvail()` (R52). -/
abbrev State.rxAvail (s : State) : Nat := s.rx.length

/-- `RxPeek(k)`, defined only for `k < RxAvail()`; otherwise a fault of the model (R53). -/
def rxPeek (k : Nat) (s : State) : Res Byte :=
  match s.rx[k]? with
  | some b => .next b
  | none => .fault .rxPeekPastEnd

/-- `RxRead(n)` for `n <= RxAvail()`: the bytes and the state without them; otherwise a fault of the model (R54). -/
def rxRead (n : Nat) (s : State) : Res (List Byte × State) :=
  if n ≤ s.rxAvail then .next (s.rx.take n, s.setRx (s.rx.drop n)) else .fault .rxReadPastEnd

/-- `TxFree()` (R55). -/
abbrev State.txFree (s : State) : Nat := s.par.txCap.toNat - s.tx.length

/-- `TxWrite(f)` for `|f| <= TxFree()`; otherwise a fault of the model (R56). -/
def txWrite (f : List Byte) (s : State) : Res State :=
  if f.length ≤ s.txFree then .next (s.setTx (s.tx ++ f)) else .fault .txWriteOverflow

/-! ### Frame buffer -/

/-- `FB[0 .. |bs|) <- bs`. FB has BUF_MAX bytes: an address past them does not exist (R28, R117). -/
def fbWrite (bs : List Byte) (s : State) : Res State :=
  if bs.length ≤ s.par.bufMax.toNat then .next (s.setFb (Memory.writeBytes s.fb 0 bs)) else .fault .frameBufferOverflow

/-- `FB[0 .. n)` (R130, R138). -/
def State.fbRead (s : State) (n : Nat) : List Byte := Memory.readBytes s.fb 0 n

/-! ### Configuration -/

/-- The lesser of two 16-bit unsigned values: `min` of R23, R180 and R181. -/
def minHalf (a b : Half) : Half := if a.toNat ≤ b.toNat then a else b

/-- A write of `n` to `cfg.bufCap` stores `min(n, BUF_MAX)` (R23). -/
def State.writeBufCap (s : State) (n : Half) : State :=
  s.setCfg { s.cfg with bufCap := minHalf n s.par.bufMax }

/-! ### Registers by number (R35): names only, no operation takes one -/

/-- The 1-bit encoding of `asm` (R25). -/
def asmCode : Asm → Nat
  | .idle => 0
  | .syncing => 1

/-- Register `n` of R35, as a number; none for a number that names no register. -/
def State.register (s : State) (n : Nat) : Option Nat :=
  match n with
  | 0 => some (if s.cfg.opened then 1 else 0)
  | 1 => some (modeCode s.cfg.mode).toNat
  | 2 => some s.cfg.maxPayload.toNat
  | 3 => some s.cfg.bufCap.toNat
  | 4 => some (asmCode s.asm)
  | _ => none

end Sys2Proof.Machine
end

