-- ==== Sys2Proof/Machine/Codec.lean ====
section
/-!
DEFINITION. The frame codec: the pure functions Encode and Decode and their command forms (41_codec.md).
-/

namespace Sys2Proof.Machine

/-- `Encode(m, dataId, flags, payload)` (R110, R111): the CRC covers the payload only (R75, R102). -/
def encodeMessage (m : Mode) (dataId : Half) (flags : Byte) (payload : List Byte) : List Byte :=
  frameBytes m flags dataId (checksum payload) payload

/-- `Decode(m, fb)` (R115): the status, and the message or ABSENT. Start and end bytes are not checked (D20). -/
def decodeMessage (m : Mode) (fb : List Byte) : Status × Message :=
  if fb.length < hl m then (.corruptFrame, Message.absent)
  else
    let len := byteAt fb (offLen m)
    if fb.length < hl m + len.toNat then (.corruptFrame, Message.absent)
    else
      let payload := (fb.drop (hl m)).take len.toNat
      if hasCrc m ∧ checksum payload ≠ half16At fb (offCrc m) then (.corruptFrame, Message.absent)
      else
        (.message,
          { dataId := half16At fb (offId m), flags := byteAt fb (offFlags m), size := len, payload := payload })

/-- ENCODE (R110): it reads no session state and writes none. -/
def execEncode (m : Mode) (dataId : Half) (flags : Byte) (payload : List Byte) (s : State) : Res State :=
  .next (s.respond (.frame (encodeMessage m dataId flags payload)))

/-- DECODE (R115): it reads no session state and writes none. -/
def execDecode (m : Mode) (fb : List Byte) (s : State) : Res State :=
  .next (s.respond (.decoded (decodeMessage m fb).1 (decodeMessage m fb).2))

end Sys2Proof.Machine
end

