-- ==== Sys2Proof/Machine/Dispatcher.lean ====
section
/-!
DEFINITION. The system-message dispatcher (43_dispatcher.md): one definition per action, and `Dispatch` over them. The message
under dispatch is `s.msg`, the acknowledge outcome so far `s.ack`.
-/

namespace Sys2Proof.Machine

/-- `SendReply(id, p)` (R160, R169): a frame in the session Mode with flags 0x00 (D23), written whole if it fits, else
nothing. It checks neither `cfg.maxPayload` nor `cfg.bufCap` (D25). -/
def sendReply (id : Half) (p : List Byte) (s : State) : Res (ReplyOutcome × State) :=
  let f := encodeMessage s.cfg.mode id 0x00#8 p
  if s.txFree < f.length then .next (.txFull, s)
  else andThen (txWrite f s) fun s' => .next (.sent, s')

/-- A POLL ends with the dispatcher's result (R160): the acknowledge outcome is the one recorded. -/
def dispatched (k : Status) (r : Message) (reply : ReplyOutcome) (s : State) : Res State :=
  .next (s.respond (.polled k r s.ack reply))

/-- `Suppressed(ack, reply)` (R160, R170). -/
def suppressed (reply : ReplyOutcome) (s : State) : Res State := dispatched .noMessage Message.absent reply s

/-- ACK_FLAG (R161): an Acknowledge whose payload is the message's dataId, MSB first (D22). It has no result of its own:
the outcome is recorded for the dataId action's. Flags bits 7:1 (`_x`) play no part. -/
def execAckFlag (_x : BitVec 7) (s : State) : Res State :=
  andThen (sendReply 0x0006#16 (beBytes s.msg.dataId) s) fun p => .next (p.2.setAck p.1)

/-- SYS_NONE (R139): the POLL returns NO_MESSAGE, the dispatcher does not run, and nothing is acknowledged. -/
def execSysNone (s : State) : Res State := raisePoll .noMessage s

/-- PING (R162): reply a Ping-reply with a 1-byte zero payload; suppress. -/
def execPing (s : State) : Res State :=
  andThen (sendReply 0x0002#16 [0x00#8] s) fun p => suppressed p.1 p.2

/-- PING_REPLY (R163): suppress. -/
def execPingReply (s : State) : Res State := suppressed .none s

/-- SUBSCRIBE (R164): suppress; the engine keeps no subscriber table. -/
def execSubscribe (s : State) : Res State := suppressed .none s

/-- UNSUBSCRIBE (R165): suppress. -/
def execUnsubscribe (s : State) : Res State := suppressed .none s

/-- FORCE_UNSUBSCRIBE (R166): suppress. -/
def execForceUnsubscribe (s : State) : Res State := suppressed .none s

/-- ACKNOWLEDGE (R167): suppress; the echoed dataId is not checked. -/
def execAcknowledge (s : State) : Res State := suppressed .none s

/-- APPLICATION (R168): the message is returned unchanged, under the dataId that matched. -/
def execApplication (i : Half) (s : State) : Res State :=
  dispatched .message { s.msg with dataId := i } .none s

/-- The dataId action of `s.msg` (R76, R77, R160). -/
def dispatchAction (s : State) : Res State :=
  let i := s.msg.dataId
  if i = 0x0000#16 then execSysNone s
  else if i = 0x0001#16 then execPing s
  else if i = 0x0002#16 then execPingReply s
  else if i = 0x0003#16 then execSubscribe s
  else if i = 0x0004#16 then execUnsubscribe s
  else if i = 0x0005#16 then execForceUnsubscribe s
  else if i = 0x0006#16 then execAcknowledge s
  else execApplication i s

/-- `Dispatch(r)` (R160) on a message with `dataId != 0`: `ack` starts at NONE, the acknowledge comes before the dataId
action, and its failure does not end the POLL (R210). -/
def dispatch (r : Message) (s : State) : Res State :=
  let s0 := (s.setMsg r).setAck .none
  if ackRequested r.flags then andThen (execAckFlag (flagsHigh r.flags) s0) dispatchAction
  else dispatchAction s0

end Sys2Proof.Machine
end

