-- ==== Sys2Proof/Machine/Assembler.lean ====
section
/-!
DEFINITION. The stream assembler (42_assembler.md): POLL, and the frames that a POLL consumes.
-/

namespace Sys2Proof.Machine

/-- A consumed frame of Mode `m` runs (R138, R139): its bytes fill FB, the assembler is Idle, FB's bytes are decoded, and
the result is CORRUPT_FRAME, NO_MESSAGE for dataId 0, or Dispatch's. -/
def runFrame (m : Mode) (bytes : List Byte) (s : State) : Res State :=
  andThen (fbWrite bytes s) fun s1 =>
    let s2 := s1.setAsm .idle
    let d := decodeMessage m (s2.fbRead bytes.length)
    if d.1 = .corruptFrame then raisePoll .corruptFrame s2
    else if d.2.dataId = 0x0000#16 then execSysNone s2
    else dispatch d.2 s2

/-- FRAME_FULL (R70, R72, R138, R139): see log 10. -/
def execFrameFull (flags : Byte) (dataId crc : Half) (payload : List Byte) (s : State) : Res State :=
  runFrame .full (frameBytes .full flags dataId crc payload) s

/-- FRAME_START_ONLY (R70, R72, R138, R139): see log 10. -/
def execFrameStartOnly (flags : Byte) (dataId crc : Half) (payload : List Byte) (s : State) : Res State :=
  runFrame .startOnly (frameBytes .startOnly flags dataId crc payload) s

/-- FRAME_DELIM_CRC (R70, R72, R138, R139): see log 10. -/
def execFrameDelimCrc (flags : Byte) (dataId crc : Half) (payload : List Byte) (s : State) : Res State :=
  runFrame .delimCrc (frameBytes .delimCrc flags dataId crc payload) s

/-- FRAME_NO_CRC (R70, R72, R138, R139): the frame has no CRC field; see log 10. -/
def execFrameNoCrc (flags : Byte) (dataId : Half) (payload : List Byte) (s : State) : Res State :=
  runFrame .noCrc (frameBytes .noCrc flags dataId 0#16 payload) s

/-- The receive queue after step 2's scan: the bytes before the first start byte are discarded, or all of them (R133). -/
def scanned : List Byte → List Byte
  | [] => []
  | b :: bs => if b = startByte then b :: bs else scanned bs

/-- Discard the byte at offset 0, go Idle and report `k`: what R135 and R136 do. -/
def discardOne (k : Status) (s : State) : Res State :=
  andThen (rxRead 1 s) fun p => raisePoll k (p.2.setAsm .idle)

/-- Step 5's check (R135): in a Mode with an end byte, whether the byte at `hl - 1` is the end byte. -/
def endByteOk (s : State) : Res Bool :=
  if hasEnd s.cfg.mode then andThen (rxPeek (offEnd s.cfg.mode) s) fun b => .next (decide (b = endByte))
  else .next true

/-- Step 6's condition on the length byte (R136): `total = len + hl` without wrap (R141). -/
def oversize (len : Byte) (s : State) : Bool :=
  decide (s.cfg.bufCap.toNat < len.toNat + hl s.cfg.mode) || decide (s.cfg.maxPayload.toNat < len.toNat)

/-- Steps 3 to 8 of POLL (R134 to R139). -/
def assembleFrame (s : State) : Res State :=
  let m := s.cfg.mode
  if s.rxAvail < hl m then raisePoll .noMessage s
  else andThen (rxPeek (offLen m) s) fun len =>
    andThen (endByteOk s) fun ok =>
      if ok = false then discardOne .misaligned s
      else if oversize len s then discardOne .frameTooLarge s
      else
        let total := len.toNat + hl m
        if s.rxAvail < total then raisePoll .noMessage s
        else andThen (rxRead total s) fun p => runFrame m p.1 p.2

/-- POLL (R130, R131 to R133): the entry check, and step 2's scan in an Idle start-byte Mode. -/
def execPoll (s : State) : Res State :=
  if s.cfg.opened = false then raisePoll .notOpen s
  else if hasStart s.cfg.mode = true ∧ s.asm = .idle then
    if s.rxAvail = 0 then raisePoll .noMessage s
    else
      let s1 := s.setRx (scanned s.rx)
      if s1.rxAvail = 0 then raisePoll .noMessage s1
      else assembleFrame (s1.setAsm .syncing)
  else assembleFrame s

end Sys2Proof.Machine
end

