-- ==== Sys2Proof/Machine/Integrity.lean ====
section
/-!
DEFINITION. The CHECKSUM command (40_integrity.md).
-/

namespace Sys2Proof.Machine

/-- CHECKSUM (R100): it reads no session state and writes none. -/
def execChecksum (d : List Byte) (s : State) : Res State := .next (s.respond (.crc (checksum d)))

end Sys2Proof.Machine
end

