-- ==== Sys2Proof/Machine/Session.lean ====
section
/-!
DEFINITION. The session operations (44_session.md) and the reserved commands (R81).
-/

namespace Sys2Proof.Machine

/-- OPEN (R180): RX and TX are not touched. -/
def execOpenSession (m : Mode) (maxPayload : Byte) (s : State) : Res State :=
  .next (((s.setCfg { opened := true, mode := m, maxPayload := maxPayload,
                      bufCap := minHalf s.par.rxCap s.par.bufMax }).setAsm .idle).respond (.plain .ok))

/-- SET_BUFFER_SIZE (R181). The transport's `setBufferLength` leaves RX_CAP as it is (D10). -/
def execSetBufferSize (n : Half) (s : State) : Res State :=
  if s.cfg.opened = false then raiseStatus .notOpen s
  else .next ((s.writeBufCap n).respond (.plain .ok))

/-- GET_BUFFER_SIZE (R182). -/
def execGetBufferSize (s : State) : Res State :=
  if s.cfg.opened = false then raiseStatus .notOpen s
  else .next (s.respond (.bufferSize s.cfg.bufCap))

/-- SEND (R183): the checks in its order, then the frame whole. -/
def execSend (dataId : Half) (flags : Byte) (payload : List Byte) (s : State) : Res State :=
  if s.cfg.opened = false then raiseStatus .notOpen s
  else if s.cfg.maxPayload.toNat < payload.length ∨ s.cfg.bufCap.toNat < payload.length + hl s.cfg.mode then
    raiseStatus .frameTooLarge s
  else
    let f := encodeMessage s.cfg.mode dataId flags payload
    if s.txFree < f.length then raiseStatus .txFull s
    else andThen (txWrite f s) fun s' => .next (s'.respond (.plain .ok))

/-- A reserved or illegal command (R81, R206): BAD_COMMAND and no other effect. The response has the status alone, whatever
operation the command byte names: DESIGN CHOICE, R81 and R30 leave its further fields open (log 19). -/
def rejectCommand (s : State) : Res State := raiseStatus .badCommand s

/-- RESERVED_COMMAND (R81): whatever its code. -/
def execReservedCommand (_code : Byte) (s : State) : Res State := rejectCommand s

end Sys2Proof.Machine
end

