-- ==== Sys2Proof/Machine/Dispatch.lean ====
section
/-!
DEFINITION. One arm per constructor of Instr.
-/

namespace Sys2Proof.Machine

def exec (i : Instr) (s : State) : Host.Outcome State Fault Refusal :=
  match i with
  | .openSession m maxPayload => Sys2Proof.Machine.execOpenSession m maxPayload s
  | .setBufferSize n => Sys2Proof.Machine.execSetBufferSize n s
  | .getBufferSize => Sys2Proof.Machine.execGetBufferSize s
  | .checksum d => Sys2Proof.Machine.execChecksum d s
  | .encode m dataId flags payload => Sys2Proof.Machine.execEncode m dataId flags payload s
  | .decode m frame => Sys2Proof.Machine.execDecode m frame s
  | .poll => Sys2Proof.Machine.execPoll s
  | .send dataId flags payload => Sys2Proof.Machine.execSend dataId flags payload s
  | .reservedCommand code => Sys2Proof.Machine.execReservedCommand code s
  | .frameFull flags dataId crc payload => Sys2Proof.Machine.execFrameFull flags dataId crc payload s
  | .frameStartOnly flags dataId crc payload => Sys2Proof.Machine.execFrameStartOnly flags dataId crc payload s
  | .frameDelimCrc flags dataId crc payload => Sys2Proof.Machine.execFrameDelimCrc flags dataId crc payload s
  | .frameNoCrc flags dataId payload => Sys2Proof.Machine.execFrameNoCrc flags dataId payload s
  | .sysNone => Sys2Proof.Machine.execSysNone s
  | .ping => Sys2Proof.Machine.execPing s
  | .pingReply => Sys2Proof.Machine.execPingReply s
  | .subscribe => Sys2Proof.Machine.execSubscribe s
  | .unsubscribe => Sys2Proof.Machine.execUnsubscribe s
  | .forceUnsubscribe => Sys2Proof.Machine.execForceUnsubscribe s
  | .acknowledge => Sys2Proof.Machine.execAcknowledge s
  | .application dataId => Sys2Proof.Machine.execApplication dataId s
  | .ackFlag x => Sys2Proof.Machine.execAckFlag x s

end Sys2Proof.Machine
end

