-- ==== Sys2Proof/Machine/Inputs.lean ====
section
/-!
DEFINITION. What one input does: a command (R184), a line agent's step (R59, R60), power-on reset (R230), a foreign reader
(R57); how a word of opcode_table.json is laid where the next step fetches it (log 12); and the assembler's lines (R82).
-/

namespace Sys2Proof.Machine

/-- A command is decoded and runs; one that does not decode is answered BAD_COMMAND (R81, R184). -/
def runCommand (bytes : List Byte) (s : State) : Res State :=
  match decodeCommand bytes with
  | .ok i => exec i s
  | .error _ => rejectCommand s

/-- `RxArrive(b)` (R59): a byte that arrives at a full RX is lost. -/
def rxArrive (b : Byte) (s : State) : State :=
  if s.rxAvail < s.par.rxCap.toNat then s.setRx (s.rx ++ [b]) else s

/-- `TxDrain()` (R60): the head of TX goes; on an empty TX the agent has no step, and nothing changes (log 8). -/
def txDrain (s : State) : State := s.setTx s.tx.tail

/-- Power-on reset of the instance (R37, R230): every engine state element, and neither RX nor TX (log 9). -/
def powerOn (s : State) : State :=
  ((((s.setCfg Cfg.reset).setAsm .idle).setFb []).setMsg Message.absent).setAck .none

/-- One input. -/
def runInput (i : Input) (s : State) : Res State :=
  match i with
  | .command bytes => runCommand bytes s
  | .rxArrive b => .next (rxArrive b s)
  | .txDrain => .next (txDrain s)
  | .powerOn => .next (powerOn s)
  | .foreignRead => .refused .sharedReceiveQueue

/-- The next input is taken and runs as one atomic step (R58). The response shown is that step's own (log 4). With no input
pending nothing happens (R216). -/
def runNext (s : State) : Res State :=
  match s.inputs with
  | [] => .next (s.setResp none)
  | i :: rest => runInput i ((s.setInputs rest).setResp none)

/-! ### Laying an instruction where the next step fetches it (log 12) -/

/-- The bytes of the POLL command. -/
def pollCommand : List Byte := encode .poll

/-- The state whose next step is the command `bytes`. -/
def withCommand (bytes : List Byte) (s : State) : State := s.setInputs (.command bytes :: s.inputs)

/-- The state whose next step is a POLL of an open session of Mode `m` that consumes the frame `bytes`: the session is open
and Idle, its limits admit the frame, and RX holds the frame. -/
def withFrame (m : Mode) (bytes : List Byte) (s : State) : State :=
  withCommand pollCommand
    (((s.setCfg { opened := true, mode := m, maxPayload := 255#8, bufCap := s.par.bufMax }).setAsm .idle).setRx bytes)

/-- A table word (log 11) laid where the next step fetches it: a command as the next input; a frame in RX; a dataId as the
dataId of an empty frame of the session's Mode in RX; a flags byte as the flags of an empty APPLICATION frame. -/
def layTableWord (s : State) (nbits w : Nat) : State :=
  match tableFormat nbits w with
  | .command => withCommand (tableInstrBytes nbits w) s
  | .frame m => withFrame m (tableInstrBytes nbits w) s
  | .dataId => withFrame s.cfg.mode (encodeMessage s.cfg.mode (BitVec.ofNat 16 w) 0x00#8 []) s
  | .flags => withFrame s.cfg.mode (encodeMessage s.cfg.mode 0x0007#16 (BitVec.ofNat 8 w) []) s

/-! ### The assembler's lines (R82), as abstract syntax -/

/-- A line of R82: an operation, SEND with flags omitted, `RX+` or `TX-`. -/
inductive AsmLine where
  | op (i : Instr)
  | sendNoFlags (dataId : Half) (payload : List Byte)
  | rxPlus (bytes : List Byte)
  | txMinus (n : Nat)
deriving DecidableEq, Repr

/-- The inputs a line stands for (R82): one command, one `RxArrive` per byte, `n` `TxDrain` steps; omitted flags are 0x00. -/
def AsmLine.inputs : AsmLine → List Input
  | .op i => [.command (encode i)]
  | .sendNoFlags d p => [.command (encode (.send d 0x00#8 p))]
  | .rxPlus bs => bs.map .rxArrive
  | .txMinus n => List.replicate n .txDrain

end Sys2Proof.Machine
end

