-- ==== Sys2Proof/Machine/Step.lean ====
section
/-!
DEFINITION. One step of the machine, and the host's way to lay an instruction where the next step fetches it.
-/

namespace Sys2Proof.Machine

/-- One step: the next input, or nothing (R58). -/
def step (s : State) : Host.Outcome State Fault Refusal := runNext s

/-- The state whose very next step runs the instruction of a table word (log 12). -/
def State.withFetchWord (s : State) (nbits w : Nat) : State := layTableWord s nbits w

end Sys2Proof.Machine
end

