-- ==== Sys2Proof/Safety.lean ====
section
/-!
DEFINITION. What the statements call legal and safe: the invariant of every reachable state, and a step that goes on.
-/

namespace Sys2Proof.Machine

/-- R26: while Syncing, the session is open in a start-byte Mode and the start byte stands at offset 0 of RX. -/
abbrev SyncInv (s : State) : Prop :=
  s.asm = .syncing → s.cfg.opened = true ∧ hasStart s.cfg.mode = true ∧ s.rx.head? = some startByte

/-- The legal states: parameters in the ranges of R7, queues within their capacities (R31, R32), `cfg.bufCap` legal (R23,
R35), R26, FB canonical and within its BUF_MAX bytes (R28). -/
structure Inv (s : State) : Prop where
  params : s.par.wf
  rxFits : s.rx.length ≤ s.par.rxCap.toNat
  txFits : s.tx.length ≤ s.par.txCap.toNat
  bufCap : s.cfg.bufCap.toNat ≤ s.par.bufMax.toNat
  sync : SyncInv s
  fbWf : s.fb.wf
  fbBelow : s.fb.below s.par.bufMax.toNat

/-- The step goes on: no fault and no refusal. -/
def GoesOn (o : Host.Outcome State Fault Refusal) : Prop := ∃ t, o = .next t

end Sys2Proof.Machine
end

