-- ==== Sys2Proof/Certificates/Slice0/Obligations.lean ====
section
/-!
DEFINITION. The statements for the provers. Each docstring names the rule of spec/ it formalises; where a rule's clause is a
decision of the spec (92_eei_decisions.md) or an inference the spec marks as derived, the docstring says so. Names under
`Sys2Proof.Claim` are the vocabulary of the statements. In all of them the client's commands and the agents' steps come from
the state's list of inputs (log 1), and the response of a step is the field `resp` of the next state (log 4).
-/

namespace Sys2Proof.Claim

open Sys2Proof.Machine

/-- The POLL command as an input (R79). -/
def pollInput : Input := .command [0x20#8]

/-- The state an input runs in: it is taken from the list, and no response stands yet. -/
def taken (s : State) (rest : List Input) : State := (s.setInputs rest).setResp none

/-- The status of a response (R30, R84): OPEN's and SEND's own, OK for a value read or computed. -/
def statusOf : Response → Status
  | .plain k => k
  | .bufferSize _ => .ok
  | .crc _ => .ok
  | .frame _ => .ok
  | .decoded k _ => k
  | .polled k _ _ _ => k

/-- A POLL's response without a message and without replies (R30). -/
def pollSays (k : Status) : Response := .polled k Message.absent .none .none

/-- What writing a reply frame `f` into a TX of capacity `cap` gives: the outcome and the queue (R83, R169). -/
def replyTo (cap : Nat) (tx f : List Byte) : ReplyOutcome × List Byte :=
  if f.length ≤ cap - tx.length then (.sent, tx ++ f) else (.txFull, tx)

/-- The Acknowledge frame that echoes a dataId (R161). -/
def ackFrame (m : Mode) (dataId : Half) : List Byte := encodeMessage m 0x0006#16 0x00#8 [hiByte dataId, loByte dataId]

/-- The Ping-reply frame (R162). -/
def pingReplyFrame (m : Mode) : List Byte := encodeMessage m 0x0002#16 0x00#8 [0x00#8]

/-- The acknowledge outcome and the queue after it, for a message under dispatch (R161). -/
def afterAck (r : Message) (s : State) : ReplyOutcome × List Byte :=
  if r.flags.getLsbD 0 then replyTo s.par.txCap.toNat s.tx (ackFrame s.cfg.mode r.dataId) else (.none, s.tx)

/-- The state Dispatch leaves for a message whose dataId is not 0 (R160). -/
def dispatchResult (r : Message) (s : State) : State :=
  let a := afterAck r s
  let s1 := ((s.setMsg r).setAck a.1).setTx a.2
  if r.dataId = 0x0001#16 then
    let p := replyTo s.par.txCap.toNat a.2 (pingReplyFrame s.cfg.mode)
    (s1.setTx p.2).respond (.polled .noMessage Message.absent a.1 p.1)
  else if r.dataId.toNat ≤ 6 then s1.respond (.polled .noMessage Message.absent a.1 .none)
  else s1.respond (.polled .message r a.1 .none)

/-- The state after a frame of Mode `m` with these fields has been consumed (R138, R139): FB holds its bytes from address 0,
the assembler is Idle, and the CRC, the dataId and the dispatcher decide the response. -/
def frameResult (m : Mode) (flags : Byte) (dataId crc : Half) (payload : List Byte) (s : State) : State :=
  let s1 := (s.setFb (Memory.writeBytes s.fb 0 (frameBytes m flags dataId crc payload))).setAsm .idle
  if hasCrc m = true ∧ checksum payload ≠ crc then s1.respond (pollSays .corruptFrame)
  else if dataId = 0x0000#16 then s1.respond (pollSays .noMessage)
  else dispatchResult { dataId := dataId, flags := flags, size := len8 payload, payload := payload } s1

/-- The session is open, and in a start-byte Mode the start byte stands at offset 0 of RX. -/
abbrev Aligned (s : State) : Prop :=
  s.cfg.opened = true ∧ (hasStart s.cfg.mode = true → s.rx.head? = some startByte)

/-- An aligned state after step 2: Syncing in a start-byte Mode (R133), unchanged in the others (R131). -/
def started (s : State) : State := if hasStart s.cfg.mode then s.setAsm .syncing else s

/-- The length byte of the header at the head of RX (R135). -/
def headLen (s : State) : Nat := (byteAt s.rx (offLen s.cfg.mode)).toNat

/-- The header at the head of RX is present and its end byte, in FULL, is right (R134, R135). -/
abbrev HeaderOk (s : State) : Prop :=
  hl s.cfg.mode ≤ s.rx.length ∧ (hasEnd s.cfg.mode = true → byteAt s.rx (hl s.cfg.mode - 1) = endByte)

/-- A frame of `n` payload bytes passes step 6's check (R136). -/
abbrev Admitted (s : State) (n : Nat) : Prop :=
  n + hl s.cfg.mode ≤ s.cfg.bufCap.toNat ∧ n ≤ s.cfg.maxPayload.toNat

/-- Bytes the scan discards before a frame: none equal to the start byte, and none at all where no scan runs (R131, R133). -/
abbrev Junk (s : State) (junk : List Byte) : Prop :=
  junk = [] ∨ (hasStart s.cfg.mode = true ∧ s.asm = .idle ∧ ∀ b ∈ junk, b ≠ startByte)

/-- A frame whose header is present and admitted but which can never be whole in RX (R241). -/
abbrev Stalled (s : State) : Prop :=
  Aligned s ∧ HeaderOk s ∧ Admitted s (headLen s) ∧ s.rx.length ≤ s.par.rxCap.toNat
    ∧ s.par.rxCap.toNat < headLen s + hl s.cfg.mode

/-- The two states agree on everything but FB, the locals `msg` and `ack`, and the last response. -/
abbrev SameButScratch (s t : State) : Prop :=
  s.par = t.par ∧ s.cfg = t.cfg ∧ s.asm = t.asm ∧ s.rx = t.rx ∧ s.tx = t.tx ∧ s.inputs = t.inputs

/-- Two outcomes that the client and the lines cannot tell apart. -/
def Indistinguishable : Host.Outcome State Fault Refusal → Host.Outcome State Fault Refusal → Prop
  | .next s, .next t => SameButScratch s t ∧ s.resp = t.resp
  | .fault f, .fault g => f = g
  | .refused f, .refused g => f = g
  | _, _ => False

/-- One bit of the MSB-first CRC shift register with generator polynomial 0x1021 (R104). -/
def crcBit (acc : Half) : Half := if acc.msb then (acc <<< 1) ^^^ 0x1021#16 else acc <<< 1

/-- One byte of that CRC: the byte enters at the high end, then eight bits shift out. -/
def crcByte (acc : Half) (b : Byte) : Half :=
  crcBit (crcBit (crcBit (crcBit (crcBit (crcBit (crcBit (crcBit (acc ^^^ (b.zeroExtend 16 <<< 8)))))))))

/-- The CRC with initial value 0xFFFF, no reflection and no final XOR (R104). -/
def crc16 (d : List Byte) : Half := d.foldl crcByte 0xFFFF#16

/-- The inputs that deliver groups of bytes with a POLL after each. -/
def deliveries (groups : List (List Byte)) : List Input :=
  groups.flatMap fun g => g.map Input.rxArrive ++ [pollInput]

/-- Run a state on a list of inputs, one step each. -/
def runAll (s : State) (ins : List Input) : Host.Outcome State Fault Refusal :=
  Sys2Proof.core.run ins.length (s.setInputs ins)

/-- Byte sequences R81 calls illegal as commands: a reserved code, a mode byte with bits 7:2 set, fewer operand bytes than
the length operand declares. -/
inductive Illegal : List Byte → Prop where
  | reserved (c : Byte) (ops : List Byte) : c ∉ commandCodes → Illegal (c :: ops)
  | modeBits (c mm : Byte) (ops : List Byte) : c ∈ [0x01#8, 0x11#8, 0x12#8] → mm.extractLsb' 2 6 ≠ 0#6 →
      Illegal (c :: mm :: ops)
  | shortChecksum (l1 l0 : Byte) (d : List Byte) : d.length < (be16 l1 l0).toNat → Illegal (0x10#8 :: l1 :: l0 :: d)
  | shortEncode (mm i1 i0 ff ll : Byte) (p : List Byte) : p.length < ll.toNat →
      Illegal (0x11#8 :: mm :: i1 :: i0 :: ff :: ll :: p)
  | shortDecode (mm l1 l0 : Byte) (b : List Byte) : b.length < (be16 l1 l0).toNat →
      Illegal (0x12#8 :: mm :: l1 :: l0 :: b)
  | shortSend (i1 i0 ff ll : Byte) (p : List Byte) : p.length < ll.toNat → Illegal (0x21#8 :: i1 :: i0 :: ff :: ll :: p)

end Sys2Proof.Claim

open Sys2Proof Sys2Proof.Machine Sys2Proof.Claim

/-! ### Encodings -/

/-- R72, R76, R78, R79, R80: decoding the encoding of a well-formed instruction gives it back, for every row of the table. -/
def Obligations.DecodeOfEncodeIsTheInstruction : Prop :=
  ∀ i : Instr, i.wf = true → decode i.format (encode i) = .ok i

/-- The other direction: bytes that decode are the encoding of a well-formed instruction of that format. That no command
has surplus bytes is the model's choice (log 6). -/
def Obligations.EncodeOfDecodeIsTheBytes : Prop :=
  ∀ (f : Format) (bs : List Byte) (i : Instr), decode f bs = .ok i → encode i = bs ∧ i.wf = true ∧ i.format = f

/-- Words written out from 30_encoding.md and 95_test_vectors.md decode to the instructions they stand for. -/
def Obligations.WrittenOutWordsDecode : Prop :=
  decodeCommand [0x01#8, 0x02#8, 0x08#8] = .ok (.openSession .delimCrc 8#8)
    ∧ decodeCommand [0x02#8, 0x03#8, 0xE8#8] = .ok (.setBufferSize 1000#16)
    ∧ decodeCommand [0x10#8, 0x00#8, 0x01#8, 0xAB#8] = .ok (.checksum [0xAB#8])
    ∧ decodeCommand [0x11#8, 0x01#8, 0x01#8, 0x00#8, 0x01#8, 0x02#8, 0x12#8, 0x34#8]
        = .ok (.encode .startOnly 0x0100#16 0x01#8 [0x12#8, 0x34#8])
    ∧ decodeCommand [0x12#8, 0x03#8, 0x00#8, 0x04#8, 0x00#8, 0x00#8, 0x00#8, 0x03#8]
        = .ok (.decode .noCrc [0x00#8, 0x00#8, 0x00#8, 0x03#8])
    ∧ decodeCommand [0x21#8, 0x00#8, 0x07#8, 0x00#8, 0x02#8, 0x01#8, 0x02#8] = .ok (.send 7#16 0#8 [1#8, 2#8])
    ∧ decodeFrame .full [0xFE#8, 0x01#8, 0x80#8, 0xAB#8, 0xCD#8, 0x12#8, 0x34#8, 0xEF#8, 0x55#8]
        = .ok (.frameFull 0x80#8 0xABCD#16 0x1234#16 [0x55#8])
    ∧ decodeDataId 0x0005#16 = .forceUnsubscribe
    ∧ decodeFlags 0x83#8 = .ok (.ackFlag 0x41#7)

/-- R184: a command is decoded and runs, in the state with the input taken and no response yet (log 1, log 4). -/
def Obligations.StepRunsTheDecodedCommand : Prop :=
  ∀ (s : State) (rest : List Input) (bytes : List Byte) (i : Instr),
    s.inputs = .command bytes :: rest → decodeCommand bytes = .ok i → step s = exec i (taken s rest)

/-- R81: each reserved or illegal command is answered with status BAD_COMMAND, and nothing else changes (decision D3); where
the command byte names no operation with response fields of its own (R30), that status is the whole response. Which further
fields a rejected CHECKSUM, ENCODE or DECODE has is left open by the spec, and the statement says nothing of them (log 19). -/
def Obligations.IllegalCommandAnswersBadCommand : Prop :=
  ∀ (s : State) (rest : List Input) (bytes : List Byte), s.inputs = .command bytes :: rest → Illegal bytes →
    ∃ r, statusOf r = .badCommand ∧ step s = .next ((taken s rest).respond r)
      ∧ (∀ c : Byte, bytes.head? = some c → c ∉ [0x10#8, 0x11#8, 0x12#8] → r = .plain .badCommand)

/-- R81, RESERVED_COMMAND: whatever the code, the response is BAD_COMMAND and no state is written. -/
def Obligations.ReservedCommandCompletes : Prop :=
  ∀ (c : Byte) (s : State), exec (.reservedCommand c) s = .next (s.respond (.plain .badCommand))

/-! ### Integrity engine -/

/-- R100, CHECKSUM: its encoding; the loop, from the seed 0xFFFF, byte by byte; the response; no state written, in any state
(no OPEN needed, D38); the worked example. -/
def Obligations.ChecksumCommand : Prop :=
  (∀ d : List Byte, fitsU16 d → decodeCommand ([0x10#8] ++ beBytes (BitVec.ofNat 16 d.length) ++ d) = .ok (.checksum d))
    ∧ checksum [] = 0xFFFF#16
    ∧ (∀ (d : List Byte) (b : Byte),
        let acc := checksum d
        let x0 : Byte := acc.extractLsb' 8 8 ^^^ b
        let x : Byte := x0 ^^^ (x0 >>> 4)
        checksum (d ++ [b]) = (acc <<< 8) ^^^ (x.zeroExtend 16 <<< 12) ^^^ (x.zeroExtend 16 <<< 5) ^^^ x.zeroExtend 16)
    ∧ (∀ (d : List Byte) (s : State), exec (.checksum d) s = .next (s.respond (.crc (checksum d))))
    ∧ checksum [0x00#8] = 0xE1F0#16

/-- R103, a property the spec marks as derived from R100 by evaluation, "evidence from the rule, not a proof": flipping one
payload bit changes the checksum, and a frame carrying the changed payload under the old CRC decodes
as CORRUPT_FRAME with the ABSENT fields, in every Mode with a CRC. -/
def Obligations.SingleBitFlipIsDetected : Prop :=
  ∀ (pre post : List Byte) (b : Byte) (k : Nat), k < 8 →
    let p := pre ++ b :: post
    let q := pre ++ (b ^^^ (1#8 <<< k)) :: post
    checksum p ≠ checksum q
      ∧ ∀ (m : Mode) (flags : Byte) (dataId : Half), hasCrc m = true → fitsU8 p →
          decodeMessage m (frameBytes m flags dataId (checksum p) q) = (.corruptFrame, Message.absent)

/-- R104 (an equivalence the spec offers from general knowledge): the checksum is the MSB-first CRC with polynomial 0x1021,
initial value 0xFFFF, no reflection and no final XOR. -/
def Obligations.ChecksumIsTheShiftRegisterCrc : Prop := ∀ d : List Byte, checksum d = crc16 d

/-! ### Frame codec -/

/-- R110, R111, ENCODE: its encoding, the frame of each Mode byte by byte, the response, no state written in any state (D38),
the worked example. -/
def Obligations.EncodeCommand : Prop :=
  (∀ (m : Mode) (i : Half) (f : Byte) (p : List Byte), fitsU8 p →
      decodeCommand ([0x11#8, modeByte m] ++ beBytes i ++ [f, len8 p] ++ p) = .ok (.encode m i f p))
    ∧ (∀ (i : Half) (f : Byte) (p : List Byte),
        encodeMessage .full i f p
            = [0xFE#8, len8 p, f, hiByte i, loByte i, hiByte (checksum p), loByte (checksum p), 0xEF#8] ++ p
        ∧ encodeMessage .startOnly i f p
            = [0xFE#8, len8 p, f, hiByte i, loByte i, hiByte (checksum p), loByte (checksum p)] ++ p
        ∧ encodeMessage .delimCrc i f p
            = [len8 p, f, hiByte i, loByte i, hiByte (checksum p), loByte (checksum p)] ++ p
        ∧ encodeMessage .noCrc i f p = [len8 p, f, hiByte i, loByte i] ++ p)
    ∧ (∀ (m : Mode) (i : Half) (f : Byte) (p : List Byte) (s : State),
        exec (.encode m i f p) s = .next (s.respond (.frame (encodeMessage m i f p))))
    ∧ encodeMessage .full 0x0001#16 0x00#8 [] = [0xFE#8, 0x00#8, 0x00#8, 0x00#8, 0x01#8, 0xFF#8, 0xFF#8, 0xEF#8]

/-- R73: a frame is header and payload, `hl + len` bytes, from 4 to 263, and its length byte is the payload's size. -/
def Obligations.EncodedFrameLength : Prop :=
  ∀ (m : Mode) (i : Half) (f : Byte) (p : List Byte), fitsU8 p →
    (encodeMessage m i f p).length = hl m + p.length
      ∧ (encodeMessage m i f p).drop (hl m) = p
      ∧ (byteAt (encodeMessage m i f p) (offLen m)).toNat = p.length
      ∧ 4 ≤ (encodeMessage m i f p).length ∧ (encodeMessage m i f p).length ≤ 263

/-- R115, DECODE: its encoding; the response of the command, no state written in any state (D38); the result on a sequence
shorter than its header or declared frame (D20), on a CRC mismatch in a CRC Mode, and otherwise, whatever the start and end
bytes (D20) and the bytes after the frame. -/
def Obligations.DecodeCommand : Prop :=
  (∀ (m : Mode) (b : List Byte), fitsU16 b →
      decodeCommand ([0x12#8, modeByte m] ++ beBytes (BitVec.ofNat 16 b.length) ++ b) = .ok (.decode m b))
    ∧ (∀ (m : Mode) (fb : List Byte) (s : State),
        exec (.decode m fb) s = .next (s.respond (.decoded (decodeMessage m fb).1 (decodeMessage m fb).2)))
    ∧ (∀ (m : Mode) (fb : List Byte),
        (fb.length < hl m → decodeMessage m fb = (.corruptFrame, Message.absent))
        ∧ (fb.length < hl m + (byteAt fb (offLen m)).toNat → decodeMessage m fb = (.corruptFrame, Message.absent))
        ∧ (hl m + (byteAt fb (offLen m)).toNat ≤ fb.length →
            let p := (fb.drop (hl m)).take (byteAt fb (offLen m)).toNat
            (hasCrc m = true → checksum p ≠ be16 (byteAt fb (offCrc m)) (byteAt fb (offCrc m + 1)) →
              decodeMessage m fb = (.corruptFrame, Message.absent))
            ∧ ((hasCrc m = true → checksum p = be16 (byteAt fb (offCrc m)) (byteAt fb (offCrc m + 1))) →
                decodeMessage m fb
                  = (.message,
                      { dataId := be16 (byteAt fb (offId m)) (byteAt fb (offId m + 1)), flags := byteAt fb (offFlags m),
                        size := byteAt fb (offLen m), payload := p }))))

/-- R116 (derived in the spec): decoding an encoded message gives it back, in every Mode, whatever follows the frame. -/
def Obligations.DecodeMessageOfEncodeMessage : Prop :=
  ∀ (m : Mode) (i : Half) (f : Byte) (p rest : List Byte), fitsU8 p →
    decodeMessage m (encodeMessage m i f p ++ rest)
      = (.message, { dataId := i, flags := f, size := len8 p, payload := p })

/-! ### Session operations -/

/-- R180, OPEN: its encoding, the illegal mode byte, the registers written (`bufCap` by D9), RX, TX and all else unchanged
(D34), the response, at any time. -/
def Obligations.OpenCommand : Prop :=
  (∀ (m : Mode) (mp : Byte), decodeCommand [0x01#8, modeByte m, mp] = .ok (.openSession m mp))
    ∧ (∀ (mm mp : Byte) (s : State) (rest : List Input), mm.extractLsb' 2 6 ≠ 0#6 →
        s.inputs = .command [0x01#8, mm, mp] :: rest → step s = .next ((taken s rest).respond (.plain .badCommand)))
    ∧ ∀ (m : Mode) (mp : Byte) (s : State), ∃ cap : Half,
        cap.toNat = min s.par.rxCap.toNat s.par.bufMax.toNat
        ∧ exec (.openSession m mp) s
            = .next (((s.setCfg { opened := true, mode := m, maxPayload := mp, bufCap := cap }).setAsm .idle).respond
                (.plain .ok))

/-- R181, SET_BUFFER_SIZE: its encoding; NOT_OPEN with nothing changed before OPEN; after it `cfg.bufCap` becomes
`min(n, BUF_MAX)` (D10) and nothing else changes but the response. -/
def Obligations.SetBufferSizeCommand : Prop :=
  (∀ n : Half, decodeCommand ([0x02#8] ++ beBytes n) = .ok (.setBufferSize n))
    ∧ (∀ (n : Half) (s : State), s.cfg.opened = false →
        exec (.setBufferSize n) s = .next (s.respond (.plain .notOpen)))
    ∧ (∀ (n : Half) (s : State), s.cfg.opened = true → ∃ cap : Half,
        cap.toNat = min n.toNat s.par.bufMax.toNat
        ∧ exec (.setBufferSize n) s = .next ((s.setCfg { s.cfg with bufCap := cap }).respond (.plain .ok)))

/-- R182, GET_BUFFER_SIZE: its encoding; NOT_OPEN before OPEN; after it the register's value, and no state written; after
SET_BUFFER_SIZE the clamped value, which is BUF_MAX where the operand is greater. -/
def Obligations.GetBufferSizeCommand : Prop :=
  decodeCommand [0x03#8] = .ok .getBufferSize
    ∧ (∀ s : State, s.cfg.opened = false → ∃ r, statusOf r = .notOpen ∧ exec .getBufferSize s = .next (s.respond r))
    ∧ (∀ s : State, s.cfg.opened = true → exec .getBufferSize s = .next (s.respond (.bufferSize s.cfg.bufCap)))
    ∧ (∀ (n : Half) (s : State), s.cfg.opened = true → ∃ (t : State) (b : Half),
        exec (.setBufferSize n) s = .next t ∧ exec .getBufferSize t = .next (t.respond (.bufferSize b))
        ∧ b.toNat = min n.toNat s.par.bufMax.toNat ∧ (s.par.bufMax.toNat < n.toNat → b = s.par.bufMax))

/-- R183, SEND: its encoding and, in the rule's order, NOT_OPEN, FRAME_TOO_LARGE, TX_FULL with nothing written, or the whole
frame appended to TX (D24, D28); nothing else changes. -/
def Obligations.SendCommand : Prop :=
  (∀ (i : Half) (f : Byte) (p : List Byte), fitsU8 p →
      decodeCommand ([0x21#8] ++ beBytes i ++ [f, len8 p] ++ p) = .ok (.send i f p))
    ∧ ∀ (i : Half) (f : Byte) (p : List Byte) (s : State),
        (s.cfg.opened = false → exec (.send i f p) s = .next (s.respond (.plain .notOpen)))
        ∧ (s.cfg.opened = true →
            (p.length > s.cfg.maxPayload.toNat ∨ p.length + hl s.cfg.mode > s.cfg.bufCap.toNat) →
            exec (.send i f p) s = .next (s.respond (.plain .frameTooLarge)))
        ∧ (s.cfg.opened = true → Admitted s p.length →
            (encodeMessage s.cfg.mode i f p).length > s.par.txCap.toNat - s.tx.length →
            exec (.send i f p) s = .next (s.respond (.plain .txFull)))
        ∧ (s.cfg.opened = true → Admitted s p.length →
            (encodeMessage s.cfg.mode i f p).length ≤ s.par.txCap.toNat - s.tx.length →
            exec (.send i f p) s
              = .next ((s.setTx (s.tx ++ encodeMessage s.cfg.mode i f p)).respond (.plain .ok)))

/-- R184, R206: before OPEN the four session operations answer NOT_OPEN and change nothing, at the step. -/
def Obligations.BeforeOpenAnswersNotOpen : Prop :=
  ∀ (s : State) (rest : List Input), s.cfg.opened = false →
    (s.inputs = pollInput :: rest → step s = .next ((taken s rest).respond (pollSays .notOpen)))
    ∧ (s.inputs = .command [0x03#8] :: rest → ∃ r, statusOf r = .notOpen ∧ step s = .next ((taken s rest).respond r))
    ∧ (∀ n1 n0 : Byte, s.inputs = .command [0x02#8, n1, n0] :: rest →
        step s = .next ((taken s rest).respond (.plain .notOpen)))
    ∧ (∀ (i : Half) (f : Byte) (p : List Byte), fitsU8 p → s.inputs = .command (encode (.send i f p)) :: rest →
        step s = .next ((taken s rest).respond (.plain .notOpen)))

/-! ### Stream assembler -/

/-- R131: in a Mode without a start byte POLL runs no scan, returns NO_MESSAGE with nothing changed until `hl` bytes are there,
and never sets Syncing. -/
def Obligations.PollWithoutAStartByte : Prop :=
  ∀ s : State, s.cfg.opened = true → hasStart s.cfg.mode = false →
    exec .poll s = assembleFrame s
    ∧ (s.rx.length < hl s.cfg.mode → exec .poll s = .next (s.respond (pollSays .noMessage)))
    ∧ (∀ t, s.asm = .idle → exec .poll s = .next t → t.asm = .idle)

/-- R132: POLL answers NOT_OPEN before OPEN (D7), and NO_MESSAGE on an empty RX in an Idle start-byte Mode; nothing else
changes. While Syncing it skips the scan, and the start byte stands at offset 0 (R26). -/
def Obligations.PollEntry : Prop :=
  (∀ s : State, s.cfg.opened = false → exec .poll s = .next (s.respond (pollSays .notOpen)))
    ∧ (∀ s : State, s.cfg.opened = true → hasStart s.cfg.mode = true → s.asm = .idle → s.rx = [] →
        exec .poll s = .next (s.respond (pollSays .noMessage)))
    ∧ (∀ s : State, s.asm = .syncing → SyncInv s →
        exec .poll s = assembleFrame s ∧ s.rx.head? = some startByte)

/-- R133: in an Idle start-byte Mode the scan discards exactly the bytes before the first start byte and the POLL continues
(D14); with no start byte present everything is discarded, NO_MESSAGE is returned and `asm` stays Idle. -/
def Obligations.PollScan : Prop :=
  ∀ (s : State) (junk : List Byte), s.cfg.opened = true → hasStart s.cfg.mode = true → s.asm = .idle →
    (∀ b ∈ junk, b ≠ startByte) →
    (junk ≠ [] → s.rx = junk → exec .poll s = .next ((s.setRx []).respond (pollSays .noMessage)))
    ∧ (∀ tail : List Byte, s.rx = junk ++ startByte :: tail →
        exec .poll s = exec .poll ((s.setRx (startByte :: tail)).setAsm .syncing))

/-- R134: with fewer than `hl` bytes from the start of a header POLL returns NO_MESSAGE and writes nothing but `asm`, which is
Syncing in a start-byte Mode. -/
def Obligations.PollAwaitsHeader : Prop :=
  ∀ s : State, Aligned s → s.rx.length < hl s.cfg.mode →
    exec .poll s = .next ((started s).respond (pollSays .noMessage))

/-- R135: in FULL, a header whose byte 7 is not the end byte loses exactly its first byte, `asm` is Idle (D18) and the status
MISALIGNED, whatever the length byte. -/
def Obligations.PollMisaligned : Prop :=
  ∀ s : State, Aligned s → hasEnd s.cfg.mode = true → hl s.cfg.mode ≤ s.rx.length →
    byteAt s.rx (hl s.cfg.mode - 1) ≠ endByte →
    exec .poll s = .next (((s.setRx s.rx.tail).setAsm .idle).respond (pollSays .misaligned))

/-- R136, R141: a header that declares an oversize frame (`len + hl > bufCap`, without wrap, or `len > maxPayload`, D16) loses
exactly its first byte (D17), `asm` is Idle and the status FRAME_TOO_LARGE, before the frame has arrived. -/
def Obligations.PollOversize : Prop :=
  ∀ s : State, Aligned s → HeaderOk s →
    (headLen s + hl s.cfg.mode > s.cfg.bufCap.toNat ∨ headLen s > s.cfg.maxPayload.toNat) →
    exec .poll s = .next (((s.setRx s.rx.tail).setAsm .idle).respond (pollSays .frameTooLarge))

/-- R137: while the declared frame is not whole in RX, POLL returns NO_MESSAGE and writes nothing but `asm`. -/
def Obligations.PollAwaitsFrame : Prop :=
  ∀ s : State, Aligned s → HeaderOk s → Admitted s (headLen s) → s.rx.length < headLen s + hl s.cfg.mode →
    exec .poll s = .next ((started s).respond (pollSays .noMessage))

/-- R138, R139: a whole, admitted frame at the head of RX is consumed: exactly its `len + hl` bytes leave RX and stand in FB
from address 0, `asm` is Idle, and POLL's result is the frame's; bytes after it stay. -/
def Obligations.PollConsumesTheFrame : Prop :=
  ∀ (s : State), Aligned s → HeaderOk s → Admitted s (headLen s) → headLen s + hl s.cfg.mode ≤ s.rx.length →
    s.fb.wf → s.cfg.bufCap.toNat ≤ s.par.bufMax.toNat →
    let m := s.cfg.mode
    let bytes := s.rx.take (headLen s + hl m)
    let s1 := ((s.setRx (s.rx.drop (headLen s + hl m))).setFb (Memory.writeBytes s.fb 0 bytes)).setAsm .idle
    exec .poll s
      = .next
          (if (decodeMessage m bytes).1 = .corruptFrame then s1.respond (pollSays .corruptFrame)
           else if (decodeMessage m bytes).2.dataId = 0x0000#16 then s1.respond (pollSays .noMessage)
           else dispatchResult (decodeMessage m bytes).2 s1)

/-- POLL runs the frame instruction at the head of RX, past the bytes the scan discards, in the state with the frame taken
from RX (log 10; R130, R133, R138). -/
def Obligations.PollRunsTheFrameInstruction : Prop :=
  ∀ (s : State) (junk rest : List Byte) (flags : Byte) (dataId crc : Half) (payload : List Byte),
    s.cfg.opened = true → Junk s junk → Admitted s payload.length →
    s.rx = junk ++ encode (frameInstr s.cfg.mode flags dataId crc payload) ++ rest →
    exec .poll s = exec (frameInstr s.cfg.mode flags dataId crc payload) (s.setRx rest)

/-- FRAME_FULL, FRAME_START_ONLY, FRAME_DELIM_CRC and FRAME_NO_CRC each complete, whatever their CRC, when FB has room: FB gets
the frame's bytes, `asm` is Idle, and the response is CORRUPT_FRAME, NO_MESSAGE for dataId 0, or the dispatcher's (R138,
R139; log 10). -/
def Obligations.FramesComplete : Prop :=
  (∀ (f : Byte) (i c : Half) (p : List Byte) (s : State), fitsU8 p → s.fb.wf → 8 + p.length ≤ s.par.bufMax.toNat →
      exec (.frameFull f i c p) s = .next (frameResult .full f i c p s))
    ∧ (∀ (f : Byte) (i c : Half) (p : List Byte) (s : State), fitsU8 p → s.fb.wf → 7 + p.length ≤ s.par.bufMax.toNat →
        exec (.frameStartOnly f i c p) s = .next (frameResult .startOnly f i c p s))
    ∧ (∀ (f : Byte) (i c : Half) (p : List Byte) (s : State), fitsU8 p → s.fb.wf → 6 + p.length ≤ s.par.bufMax.toNat →
        exec (.frameDelimCrc f i c p) s = .next (frameResult .delimCrc f i c p s))
    ∧ (∀ (f : Byte) (i : Half) (p : List Byte) (s : State), fitsU8 p → s.fb.wf → 4 + p.length ≤ s.par.bufMax.toNat →
        exec (.frameNoCrc f i p) s = .next (frameResult .noCrc f i 0#16 p s))

/-- A consumed frame stores its bytes at FB's addresses from 0 and no other byte of FB changes (R28, R138); every instruction
but POLL and the frames leaves all of FB as it was. -/
def Obligations.FrameBufferWrites : Prop :=
  (∀ (m : Mode) (f : Byte) (i c : Half) (p : List Byte) (s t : State), fitsU8 p → s.fb.wf →
      exec (frameInstr m f i c p) s = .next t →
      ∀ a : Nat,
        (a < (encode (frameInstr m f i c p)).length →
          Memory.read t.fb a = byteAt (encode (frameInstr m f i c p)) a)
        ∧ ((encode (frameInstr m f i c p)).length ≤ a → Memory.read t.fb a = Memory.read s.fb a))
    ∧ (∀ (i : Instr) (s t : State), (∀ m, i.format ≠ .frame m) → i ≠ .poll → exec i s = .next t → t.fb = s.fb)

/-- R27 (derived in the spec): a POLL that starts in Syncing does what a POLL that starts in Idle with the same RX does. -/
def Obligations.SyncingPollIsIdlePoll : Prop :=
  ∀ s : State, SyncInv s → s.asm = .syncing → exec .poll s = exec .poll (s.setAsm .idle)

/-- R142 (derived in the spec): a frame split into groups with a POLL after each ends as the same state as one POLL after all
of it had arrived; every earlier POLL returns NO_MESSAGE, consumes no byte of the frame and writes nothing to TX. -/
def Obligations.PartialDelivery : Prop :=
  ∀ (s : State) (junk : List Byte) (i : Half) (f : Byte) (p : List Byte) (groups : List (List Byte)) (last : List Byte),
    s.cfg.opened = true → s.asm = .idle → s.rx = [] → s.fb.wf → Junk s junk → Admitted s p.length →
    s.cfg.bufCap.toNat ≤ s.par.bufMax.toNat →
    let stream := junk ++ encodeMessage s.cfg.mode i f p
    stream.length ≤ s.par.rxCap.toNat → groups.flatten ++ last = stream → last ≠ [] →
    (∃ t, runAll s (deliveries (groups ++ [last])) = .next t ∧ runAll s (deliveries [stream]) = .next t)
    ∧ ∀ n, 0 < n → n ≤ groups.length → ∃ t,
        runAll s (deliveries (groups.take n)) = .next t
        ∧ t.resp = some (pollSays .noMessage) ∧ t.tx = s.tx ∧ t.rx = (groups.take n).flatten.drop junk.length

/-- R143 (derived in the spec): in an Idle start-byte Mode, a POLL on N bytes that are no start byte, then a frame, discards
exactly the N bytes and gives the frame's result. -/
def Obligations.ResyncDiscardsExactlyTheJunk : Prop :=
  ∀ (s : State) (junk rest : List Byte) (i : Half) (f : Byte) (p : List Byte),
    s.cfg.opened = true → hasStart s.cfg.mode = true → s.asm = .idle → s.fb.wf → (∀ b ∈ junk, b ≠ startByte) →
    Admitted s p.length → s.cfg.bufCap.toNat ≤ s.par.bufMax.toNat →
    s.rx = junk ++ encodeMessage s.cfg.mode i f p ++ rest →
    exec .poll s = .next (frameResult s.cfg.mode f i (checksum p) p (s.setRx rest))

/-- R144 (derived in the spec): in FULL, with an oversize frame G of the right end byte and no false start inside it, then a
well-formed frame F, POLLs return FRAME_TOO_LARGE, one MISALIGNED for each later start byte in G, and then F's result. -/
def Obligations.OversizeFrameThenRecovery : Prop :=
  ∀ (s : State) (g rest : List Byte) (i : Half) (f : Byte) (p : List Byte),
    s.cfg.opened = true → s.cfg.mode = .full → s.asm = .idle → s.fb.wf → Admitted s p.length →
    s.cfg.bufCap.toNat ≤ s.par.bufMax.toNat →
    g.length = (byteAt g 1).toNat + 8 → byteAt g 0 = startByte → byteAt g 7 = endByte →
    ¬ Admitted s (byteAt g 1).toNat →
    (∀ k, 1 ≤ k → k < g.length → byteAt g k = startByte →
      byteAt (g ++ encodeMessage .full i f p) (k + 7) ≠ endByte) →
    s.rx = g ++ encodeMessage .full i f p ++ rest →
    let c := g.tail.count startByte
    (∀ j, j ≤ c → ∃ t, runAll s (List.replicate (j + 1) pollInput) = .next t
        ∧ t.resp = some (pollSays (if j = 0 then .frameTooLarge else .misaligned)) ∧ t.tx = s.tx)
    ∧ runAll s (List.replicate (c + 2) pollInput)
        = .next (frameResult .full f i (checksum p) p ((s.setInputs []).setRx rest))

/-- R66: a POLL consumes at most the bytes that were in RX, from its head, and writes at most two reply frames, an Acknowledge
and then a Ping-reply, of 10 and 9 bytes in FULL. -/
def Obligations.PollIsBounded : Prop :=
  ∀ s t : State, exec .poll s = .next t →
    ∃ (n : Nat) (a r : List Byte),
      n ≤ s.rx.length ∧ t.rx = s.rx.drop n ∧ t.tx = s.tx ++ a ++ r
      ∧ (a = [] ∨ ∃ i : Half, a = ackFrame s.cfg.mode i) ∧ (r = [] ∨ r = pingReplyFrame s.cfg.mode)
      ∧ a.length ≤ hl s.cfg.mode + 2 ∧ r.length ≤ hl s.cfg.mode + 1

/-- R241 (derived in the spec): a frame longer than RX_CAP that passes the oversize check never completes: every POLL returns
NO_MESSAGE and takes nothing, and every arriving byte leaves the frame pending. -/
def Obligations.FrameBeyondTheTransportStalls : Prop :=
  ∀ (s : State) (rest : List Input), Stalled s →
    (s.inputs = pollInput :: rest → ∃ t, step s = .next t
        ∧ t.resp = some (pollSays .noMessage) ∧ t.rx = s.rx ∧ t.tx = s.tx ∧ Stalled t)
    ∧ (∀ b : Byte, s.inputs = .rxArrive b :: rest → ∃ t, step s = .next t
        ∧ t.rx.take s.rx.length = s.rx ∧ t.rx.length ≤ s.par.rxCap.toNat ∧ Stalled t)

/-! ### Dispatcher -/

/-- R161, ACK_FLAG: the Acknowledge of the message's dataId, MSB first, flags 0x00 (D22, D23), is written whole or not at all;
the outcome is recorded; nothing else changes, whatever flags bits 7:1. The message and the outcome are the model's fields
(log 5, log 10). -/
def Obligations.AckFlagCompletes : Prop :=
  ∀ (x : BitVec 7) (s : State),
    let o := replyTo s.par.txCap.toNat s.tx (ackFrame s.cfg.mode s.msg.dataId)
    exec (.ackFlag x) s = .next ((s.setTx o.2).setAck o.1)

/-- R162, PING: the Ping-reply frame is written whole or not at all, the message is suppressed, and nothing else changes
(log 5, log 10). -/
def Obligations.PingCompletes : Prop :=
  ∀ s : State,
    let o := replyTo s.par.txCap.toNat s.tx (pingReplyFrame s.cfg.mode)
    exec .ping s = .next ((s.setTx o.2).respond (.polled .noMessage Message.absent s.ack o.1))

/-- R163 to R167 and R170, PING_REPLY, SUBSCRIBE, UNSUBSCRIBE, FORCE_UNSUBSCRIBE, ACKNOWLEDGE: no reply of their own, the
message suppressed, nothing else changed (log 5, log 10). -/
def Obligations.SilentSystemMessagesComplete : Prop :=
  ∀ (i : Instr) (s : State), i ∈ [Instr.pingReply, .subscribe, .unsubscribe, .forceUnsubscribe, .acknowledge] →
    exec i s = .next (s.respond (.polled .noMessage Message.absent s.ack .none))

/-- R168, APPLICATION: the message under dispatch is returned under the dataId that matched, flags whole, and nothing else
changes (log 5, log 10). -/
def Obligations.ApplicationCompletes : Prop :=
  ∀ (i : Half) (s : State),
    exec (.application i) s
      = .next (s.respond (.polled .message
          { dataId := i, flags := s.msg.flags, size := s.msg.size, payload := s.msg.payload } s.ack .none))

/-- SYS_NONE (R139): NO_MESSAGE, no reply, nothing else changed (log 10). -/
def Obligations.SysNoneCompletes : Prop :=
  ∀ s : State, exec .sysNone s = .next (s.respond (pollSays .noMessage))

/-- R160: Dispatch of a message with `dataId != 0`, in full: the acknowledge first, its failure not ending the POLL (R210), then
the dataId action, TX only written (beside the model's locals). -/
def Obligations.DispatchInFull : Prop :=
  ∀ (r : Message) (s : State), r.dataId ≠ 0x0000#16 → dispatch r s = .next (dispatchResult r s)

/-- Dispatch runs the instructions its message decodes to: ACK_FLAG where the flags byte decodes, then the dataId's row
(R160; log 10). -/
def Obligations.DispatchRunsTheDecodedActions : Prop :=
  ∀ (r : Message) (s : State),
    (∀ x : Instr, decodeFlags r.flags = .ok x →
      dispatch r s = andThen (exec x ((s.setMsg r).setAck .none)) (exec (decodeDataId r.dataId)))
    ∧ (∀ e : DecodeError, decodeFlags r.flags = .error e →
      dispatch r s = exec (decodeDataId r.dataId) ((s.setMsg r).setAck .none))

/-- R172 (derived in the spec): a POLL that consumes a well-formed Ping returns NO_MESSAGE and writes the Ping-reply, after an
Acknowledge when flags bit 0 is set, each if it fits. -/
def Obligations.PingIsTransparent : Prop :=
  ∀ (s : State) (f : Byte) (p rest : List Byte),
    s.cfg.opened = true → s.fb.wf → Admitted s p.length → s.cfg.bufCap.toNat ≤ s.par.bufMax.toNat →
    s.rx = encodeMessage s.cfg.mode 0x0001#16 f p ++ rest →
    let a := if f.getLsbD 0 then replyTo s.par.txCap.toNat s.tx (ackFrame s.cfg.mode 0x0001#16) else (.none, s.tx)
    let o := replyTo s.par.txCap.toNat a.2 (pingReplyFrame s.cfg.mode)
    ∃ t, exec .poll s = .next t ∧ t.resp = some (.polled .noMessage Message.absent a.1 o.1)
      ∧ t.tx = o.2 ∧ t.rx = rest ∧ t.asm = .idle

/-- R173 (derived in the spec): a consumed frame with `dataId != 0` and flags bit 0 set is acknowledged first, if that fits, and
processed as usual; a frame with dataId 0 is never acknowledged. -/
def Obligations.AckRequestIsAnswered : Prop :=
  ∀ (s : State) (i : Half) (f : Byte) (p rest : List Byte),
    s.cfg.opened = true → s.fb.wf → Admitted s p.length → s.cfg.bufCap.toNat ≤ s.par.bufMax.toNat →
    f.getLsbD 0 = true → s.rx = encodeMessage s.cfg.mode i f p ++ rest →
    let o := replyTo s.par.txCap.toNat s.tx (ackFrame s.cfg.mode i)
    ∃ t, exec .poll s = .next t ∧ t.rx = rest
      ∧ (i = 0x0000#16 → t.tx = s.tx ∧ t.resp = some (pollSays .noMessage))
      ∧ (i.toNat ≥ 7 → t.tx = o.2
          ∧ t.resp = some (.polled .message { dataId := i, flags := f, size := len8 p, payload := p } o.1 .none))
      ∧ (2 ≤ i.toNat → i.toNat ≤ 6 → t.tx = o.2
          ∧ t.resp = some (.polled .noMessage Message.absent o.1 .none))
      ∧ (i = 0x0001#16 → ∃ r, t.tx = o.2 ++ r ∧ ∃ k, t.resp = some (.polled .noMessage Message.absent o.1 k))

/-! ### The lines, reset and the whole machine -/

/-- R59: an arriving byte is appended to RX, or lost when RX is full (D12); nothing else changes. -/
def Obligations.ReceiveLineStep : Prop :=
  ∀ (s : State) (b : Byte) (rest : List Input), s.inputs = .rxArrive b :: rest →
    (s.rx.length < s.par.rxCap.toNat → step s = .next ((taken s rest).setRx (s.rx ++ [b])))
    ∧ (s.par.rxCap.toNat ≤ s.rx.length → step s = .next (taken s rest))

/-- R60: the transmit line takes the head of TX when there is one (D13); nothing else changes. -/
def Obligations.TransmitLineStep : Prop :=
  ∀ (s : State) (rest : List Input) (b : Byte) (bs : List Byte), s.inputs = .txDrain :: rest → s.tx = b :: bs →
    step s = .next ((taken s rest).setTx bs)

/-- R57, R247: a configuration where something else reads RX is refused (D33; log 13). -/
def Obligations.ForeignReaderIsRefused : Prop :=
  ∀ (s : State) (rest : List Input), s.inputs = .foreignRead :: rest → step s = .refused .sharedReceiveQueue

/-- R37, R230: what power-on reset leaves in the registers (D8), with RX, TX and the parameters untouched. FB's and the locals'
values are the model's choices (log 3, log 5, log 9) and stand in no clause. -/
def Obligations.PowerOnReset : Prop :=
  (∀ (s : State) (rest : List Input), s.inputs = .powerOn :: rest →
      ∃ t, step s = .next t
        ∧ t.cfg = { opened := false, mode := .full, maxPayload := 0#8, bufCap := 0#16 } ∧ t.asm = .idle
        ∧ t.rx = s.rx ∧ t.tx = s.tx ∧ t.par = s.par ∧ t.inputs = rest)
    ∧ State.reset.cfg = { opened := false, mode := .full, maxPayload := 0#8, bufCap := 0#16 } ∧ State.reset.asm = .idle

/-- R26 (derived in the spec): every step keeps: while Syncing, the Mode has a start byte and it stands at offset 0 of RX. -/
def Obligations.StepKeepsTheSyncInvariant : Prop :=
  ∀ s t : State, SyncInv s → step s = .next t → SyncInv t

/-- Every step keeps the whole invariant: queues within their capacities (R31, R32), `cfg.bufCap` legal (R23, R35), R26, FB
canonical and within BUF_MAX (R28). -/
def Obligations.StepKeepsTheInvariant : Prop := ∀ s t : State, Inv s → step s = .next t → Inv t

/-- The invariant holds right after reset, with any legal parameters and any transport contents within capacity (R37, R7). -/
def Obligations.ResetMeetsTheInvariant : Prop :=
  (∀ (p : Params) (rx0 tx0 : List Byte), p.wf → rx0.length ≤ p.rxCap.toNat → tx0.length ≤ p.txCap.toNat →
      Inv (State.powerUp p rx0 tx0))
    ∧ Inv State.reset

/-- R200: nothing is fatal: from every legal state every step goes on, whatever the command and the received bytes, and a
command ends with a response, the next input ready to run; only a foreign reader of RX, which is outside the spec, is
refused. -/
def Obligations.NothingIsFatal : Prop :=
  ∀ s : State, Inv s → (∀ rest, s.inputs ≠ .foreignRead :: rest) →
    GoesOn (step s)
    ∧ ∀ (bytes : List Byte) (rest : List Input), s.inputs = .command bytes :: rest →
        ∃ t r, step s = .next t ∧ t.resp = some r ∧ t.inputs = rest

/-- R28: FB's contents are not observable. Two states that differ only in FB, the model's locals and the last response take
steps that agree on everything but those, the new response included (the locals are the model's fields, log 5). -/
def Obligations.ScratchIsNotObservable : Prop :=
  ∀ s t : State, s.fb.wf → t.fb.wf → SameButScratch s t → Indistinguishable (step s) (step t)

/-- R21, R22, R23, R25: who writes the registers. The parameters never change; the Mode and maxPayload change only at OPEN or
power-on reset; bufCap also at SET_BUFFER_SIZE; `asm` becomes Syncing only at POLL, and changes at all only at POLL, OPEN or
power-on reset. -/
def Obligations.RegisterWriters : Prop :=
  ∀ (s t : State), step s = .next t →
    t.par = s.par
    ∧ (t.cfg.mode ≠ s.cfg.mode ∨ t.cfg.maxPayload ≠ s.cfg.maxPayload ∨ t.cfg.opened ≠ s.cfg.opened →
        (∃ rest, s.inputs = .powerOn :: rest)
        ∨ ∃ bs m mp rest, s.inputs = .command bs :: rest ∧ decodeCommand bs = .ok (.openSession m mp))
    ∧ (t.cfg.bufCap ≠ s.cfg.bufCap →
        (∃ rest, s.inputs = .powerOn :: rest)
        ∨ (∃ bs m mp rest, s.inputs = .command bs :: rest ∧ decodeCommand bs = .ok (.openSession m mp))
        ∨ ∃ bs n rest, s.inputs = .command bs :: rest ∧ decodeCommand bs = .ok (.setBufferSize n))
    ∧ (s.asm = .idle → t.asm = .syncing → ∃ rest, s.inputs = pollInput :: rest)
    ∧ (t.asm ≠ s.asm →
        (∃ rest, s.inputs = .powerOn :: rest)
        ∨ (∃ bs m mp rest, s.inputs = .command bs :: rest ∧ decodeCommand bs = .ok (.openSession m mp))
        ∨ ∃ rest, s.inputs = pollInput :: rest)

/-- R61 (derived in the spec): TX is a queue: a step appends whole bytes at its tail or takes its head, and only `TxDrain`
takes; RX likewise, where only POLL takes and only an arrival appends. -/
def Obligations.QueuesAreFifo : Prop :=
  ∀ (s t : State), step s = .next t →
    ((∃ w, t.tx = s.tx ++ w) ∨ (t.tx = s.tx.tail ∧ ∃ rest, s.inputs = .txDrain :: rest))
    ∧ (t.rx = s.rx ∨ (∃ n rest, t.rx = s.rx.drop n ∧ s.inputs = pollInput :: rest)
        ∨ ∃ b rest, t.rx = s.rx ++ [b] ∧ s.inputs = .rxArrive b :: rest)

/-- R30: in every POLL and DECODE response whose status is not MESSAGE, dataId, flags and size are 0 and the payload is empty;
where it is MESSAGE, `size` counts the payload. -/
def Obligations.ResponsesAreUniform : Prop :=
  ∀ (s t : State) (k : Status) (r : Message), step s = .next t →
    (t.resp = some (.decoded k r) ∨ ∃ a b, t.resp = some (.polled k r a b)) →
    (k ≠ .message → r = { dataId := 0#16, flags := 0#8, size := 0#8, payload := [] })
    ∧ (k = .message → r.size.toNat = r.payload.length)

/-- R83, R84: the codes of the reply outcomes and statuses. -/
def Obligations.StatusAndReplyCodes : Prop :=
  [Status.ok, .message, .noMessage, .corruptFrame, .frameTooLarge, .misaligned, .txFull, .notOpen, .badCommand].map
      (fun k => (statusCode k).toNat) = [0, 1, 2, 3, 4, 5, 6, 7, 8]
    ∧ [ReplyOutcome.none, .sent, .txFull].map replyCode = [0, 1, 2]

/-- R35: what each register reads by its number, and that its value is legal in every legal state. -/
def Obligations.RegistersAreLegal : Prop :=
  ∀ s : State, Inv s →
    ∃ o m p b a : Nat, s.register 0 = some o ∧ s.register 1 = some m ∧ s.register 2 = some p ∧ s.register 3 = some b
      ∧ s.register 4 = some a ∧ o ≤ 1 ∧ m ≤ 3 ∧ p ≤ 255 ∧ b ≤ s.par.bufMax.toNat ∧ a ≤ 1
      ∧ (o = 1 ↔ s.cfg.opened = true) ∧ m = (modeCode s.cfg.mode).toNat ∧ p = s.cfg.maxPayload.toNat
      ∧ b = s.cfg.bufCap.toNat ∧ (a = 1 ↔ s.asm = .syncing)

/-- R82: the line-agent lines: `RX+` delivers its bytes in order as far as RX has room, `TX-` takes as many bytes from TX. -/
def Obligations.LineAgentLines : Prop :=
  ∀ (s : State),
    (∀ bs : List Byte, s.rx.length ≤ s.par.rxCap.toNat → bs ≠ [] →
      runAll s (AsmLine.inputs (.rxPlus bs))
        = .next ((taken s []).setRx (s.rx ++ bs.take (s.par.rxCap.toNat - s.rx.length))))
    ∧ (∀ n : Nat, 0 < n → n ≤ s.tx.length →
        runAll s (AsmLine.inputs (.txMinus n)) = .next ((taken s []).setTx (s.tx.drop n)))

/-- A message sent by one engine and delivered to another of the same Mode is the message its POLL returns (R183, R130, R116;
program P7 of 95_test_vectors.md). -/
def Obligations.SentMessageIsReceived : Prop :=
  ∀ (a b : State) (i : Half) (f : Byte) (p : List Byte),
    a.cfg.opened = true → Admitted a p.length → a.tx = [] → hl a.cfg.mode + p.length ≤ a.par.txCap.toNat →
    b.cfg.opened = true → b.cfg.mode = a.cfg.mode → b.asm = .idle → b.rx = [] → b.fb.wf → Admitted b p.length →
    b.cfg.bufCap.toNat ≤ b.par.bufMax.toNat → hl b.cfg.mode + p.length ≤ b.par.rxCap.toNat → 7 ≤ i.toNat →
    ∃ a' t, exec (.send i f p) a = .next a' ∧ a'.resp = some (.plain .ok)
      ∧ runAll b (deliveries [a'.tx]) = .next t ∧ t.rx = []
      ∧ ∃ o, t.resp = some (.polled .message { dataId := i, flags := f, size := len8 p, payload := p } o .none)
end

