-- ==== Sys2Proof/Laws/Layout.lean ====
section
/-!
SUPPORT. Small laws of the layout and of operand assembly.
-/

namespace Sys2Proof.Machine

@[simp] theorem modeOfCode_modeCode (m : Mode) : modeOfCode (modeCode m) = m := by cases m <;> decide

@[simp] theorem modeOfByte_modeByte (m : Mode) : modeOfByte (modeByte m) = some m := by cases m <;> decide

theorem modeByte_of_modeOfByte {b : Byte} {m : Mode} (h : modeOfByte b = some m) : modeByte m = b := by
  revert b; cases m <;> decide +kernel

@[simp] theorem be16_hi_lo (v : Half) : be16 (hiByte v) (loByte v) = v := by
  simp only [be16, hiByte, loByte]; apply BitVec.eq_of_getLsbD_eq; intro i hi
  rw [BitVec.getLsbD_append]
  by_cases h : i < 8
  · simp [h]
  · have h1 : i - 8 < 8 := by omega
    have h2 : 8 + (i - 8) = i := by omega
    simp [h, h1, h2]

@[simp] theorem hiByte_be16 (a b : Byte) : hiByte (be16 a b) = a := by
  simp only [be16, hiByte]; apply BitVec.eq_of_getLsbD_eq; intro i hi
  rw [BitVec.getLsbD_extractLsb', BitVec.getLsbD_append]
  simp [hi]

@[simp] theorem loByte_be16 (a b : Byte) : loByte (be16 a b) = b := by
  simp only [be16, loByte]; apply BitVec.eq_of_getLsbD_eq; intro i hi
  rw [BitVec.getLsbD_extractLsb', BitVec.getLsbD_append]
  simp [hi]

theorem len8_toNat {p : List Byte} (h : p.length ≤ 255) : (len8 p).toNat = p.length := by
  simp [len8]; omega

theorem len8_lt (p : List Byte) : (len8 p).toNat ≤ 255 := by have := (len8 p).isLt; omega

theorem hl_pos (m : Mode) : 4 ≤ hl m := by cases m <;> decide

theorem hl_le (m : Mode) : hl m ≤ 8 := by cases m <;> decide

theorem offLen_lt_hl (m : Mode) : offLen m < hl m := by cases m <;> decide

theorem offEnd_lt_hl (m : Mode) : offEnd m < hl m := by cases m <;> decide

theorem hasStart_of_hasEnd {m : Mode} (h : hasEnd m = true) : hasStart m = true := by
  cases m <;> simp_all [hasEnd, hasStart]

/-- A frame has `hl` header bytes and the payload (R73). -/
@[simp] theorem frameBytes_length (m : Mode) (f : Byte) (i c : Half) (p : List Byte) :
    (frameBytes m f i c p).length = hl m + p.length := by
  cases m <;> simp [frameBytes, hasStart, hasCrc, hasEnd, hl] <;> omega

@[simp] theorem frameBytes_drop_hl (m : Mode) (f : Byte) (i c : Half) (p rest : List Byte) :
    (frameBytes m f i c p ++ rest).drop (hl m) = p ++ rest := by
  cases m <;> simp [frameBytes, hasStart, hasCrc, hasEnd, hl]

/-- The fields stand at the offsets of R72, whatever follows the frame. -/
theorem frameBytes_fields (m : Mode) (f : Byte) (i c : Half) (p rest : List Byte) :
    byteAt (frameBytes m f i c p ++ rest) (offLen m) = len8 p
      ∧ byteAt (frameBytes m f i c p ++ rest) (offFlags m) = f
      ∧ half16At (frameBytes m f i c p ++ rest) (offId m) = i
      ∧ (hasCrc m = true → half16At (frameBytes m f i c p ++ rest) (offCrc m) = c)
      ∧ (hasEnd m = true → byteAt (frameBytes m f i c p ++ rest) (offEnd m) = endByte)
      ∧ (hasStart m = true → byteAt (frameBytes m f i c p ++ rest) 0 = startByte) := by
  cases m <;>
    simp [frameBytes, hasStart, hasCrc, hasEnd, hl, byteAt, half16At, offLen, offFlags, offId, offCrc, offEnd]

/-- In a start-byte Mode a frame begins with the start byte. -/
theorem frameBytes_head {m : Mode} (h : hasStart m = true) (f : Byte) (i c : Half) (p : List Byte) :
    ∃ tail, frameBytes m f i c p = startByte :: tail := by
  cases m <;> simp_all [frameBytes, hasStart]

/-- A NO_CRC frame has no CRC field. -/
theorem frameBytes_noCrc (f : Byte) (i c : Half) (p : List Byte) :
    frameBytes .noCrc f i c p = frameBytes .noCrc f i 0#16 p := by
  simp [frameBytes, hasStart, hasCrc, hasEnd]

end Sys2Proof.Machine
end

