-- ==== Sys2Proof/Laws/Memory.lean ====
section
/-!
SUPPORT. The laws of byte memory: every operation keeps the canonical form and the bound, a read after a write to the same
address gives the byte, and a write leaves every other address alone.
-/

namespace Sys2Proof.Machine

theorem Memory.wf_tail {c : Host.Cell} {m : Memory} (h : Memory.wf (c :: m)) : Memory.wf m :=
  ⟨(List.pairwise_cons.1 h.1).2, fun d hd => h.2 d (List.mem_cons_of_mem _ hd)⟩

/-- The addresses of a written memory: the old ones and the address written. -/
theorem Memory.mem_write {m : Memory} {a : Nat} {b : Byte} {c : Host.Cell} (h : c ∈ Memory.write m a b) :
    c ∈ m ∨ c = (a, b) := by
  induction m with
  | nil => simp only [Memory.write] at h; split at h <;> simp_all
  | cons d m ih =>
    simp only [Memory.write] at h
    split at h
    · rcases List.mem_cons.1 h with h | h
      · exact .inl (by simp [h])
      · exact (ih h).imp (List.mem_cons_of_mem _) id
    · split at h <;> split at h <;> simp_all <;> tauto

theorem Memory.write_wf {m : Memory} (h : Memory.wf m) (a : Nat) (b : Byte) : Memory.wf (Memory.write m a b) := by
  induction m with
  | nil => simp only [Memory.write]; split <;> simp_all [Memory.wf]
  | cons c m ih =>
    have ht := Memory.wf_tail h
    have hc := (List.pairwise_cons.1 h.1).1
    have hv := h.2 c (by simp)
    simp only [Memory.write]
    split
    · rename_i hlt
      have hw := ih ht
      refine ⟨List.pairwise_cons.2 ⟨fun d hd => ?_, hw.1⟩, fun d hd => ?_⟩
      · rcases Memory.mem_write hd with hd | rfl
        · exact hc d hd
        · exact hlt
      · rcases List.mem_cons.1 hd with rfl | hd
        · exact hv
        · exact hw.2 d hd
    · rename_i hge
      by_cases hca : c.1 = a
      · simp only [hca, if_true]
        split
        · exact ht
        · rename_i hb
          refine ⟨List.pairwise_cons.2 ⟨fun d hd => hca ▸ hc d hd, ht.1⟩, fun d hd => ?_⟩
          rcases List.mem_cons.1 hd with rfl | hd
          · exact hb
          · exact ht.2 d hd
      · simp only [hca, if_false]
        split
        · exact h
        · rename_i hb
          have hlt : a < c.1 := by omega
          refine ⟨List.pairwise_cons.2 ⟨fun d hd => ?_, h.1⟩, fun d hd => ?_⟩
          · rcases List.mem_cons.1 hd with rfl | hd
            · exact hlt
            · exact Nat.lt_trans hlt (hc d hd)
          · rcases List.mem_cons.1 hd with rfl | hd
            · exact hb
            · exact h.2 d hd

/-- An address below every listed one reads as unlisted. -/
theorem Memory.read_of_lt {m : Memory} {a : Nat} (h : ∀ c ∈ m, a < c.1) : Memory.read m a = Memory.unlisted := by
  induction m with
  | nil => rfl
  | cons c m ih =>
    have h1 := h c (by simp)
    have h2 := ih fun d hd => h d (List.mem_cons_of_mem _ hd)
    rw [Memory.read, if_neg (by omega), h2]

/-- What every address reads as after one write. -/
theorem Memory.read_write {m : Memory} (h : Memory.wf m) (a x : Nat) (b : Byte) :
    Memory.read (Memory.write m a b) x = if x = a then b else Memory.read m x := by
  induction m with
  | nil => simp only [Memory.write]; split <;> simp_all [Memory.read, eq_comm]
  | cons c m ih =>
    have ht := Memory.wf_tail h
    have hc := (List.pairwise_cons.1 h.1).1
    simp only [Memory.write]
    split
    · rename_i hlt
      simp only [Memory.read, ih ht]
      by_cases hx : x = a
      · subst hx; simp only [if_true]; rw [if_neg (by omega)]
      · simp [hx]
    · rename_i hge
      by_cases hca : c.1 = a
      · have hm : Memory.read m a = Memory.unlisted := Memory.read_of_lt fun d hd => hca ▸ hc d hd
        simp only [hca, if_true]
        split
        · rename_i hb
          by_cases hx : x = a
          · simp [hx, hm, hb]
          · have : ¬ a = x := fun e => hx e.symm
            simp [hx, Memory.read, hca, this]
        · by_cases hx : x = a
          · simp [hx, Memory.read]
          · have : ¬ a = x := fun e => hx e.symm
            simp [hx, Memory.read, hca, this]
      · have hlt : a < c.1 := by omega
        have hm : Memory.read (c :: m) a = Memory.unlisted := Memory.read_of_lt fun d hd => by
          rcases List.mem_cons.1 hd with rfl | hd
          · exact hlt
          · exact Nat.lt_trans hlt (hc d hd)
        simp only [hca, if_false]
        split
        · rename_i hb
          by_cases hx : x = a
          · simp [hx, hm, hb]
          · simp [hx]
        · by_cases hx : x = a
          · simp [hx, Memory.read]
          · have : ¬ a = x := fun e => hx e.symm
            rw [Memory.read, if_neg this, if_neg hx]

theorem Memory.write_below {m : Memory} {n : Nat} (h : Memory.below n m) {a : Nat} (ha : a < n) (b : Byte) :
    Memory.below n (Memory.write m a b) := fun c hc => by
  rcases Memory.mem_write hc with hc | rfl
  · exact h c hc
  · exact ha

theorem Memory.writeBytes_wf {m : Memory} (h : Memory.wf m) (a : Nat) (bs : List Byte) :
    Memory.wf (Memory.writeBytes m a bs) := by
  induction bs generalizing m a with
  | nil => exact h
  | cons b bs ih => exact ih (Memory.write_wf h a b) (a + 1)

theorem Memory.writeBytes_below {m : Memory} {n : Nat} (h : Memory.below n m) (a : Nat) (bs : List Byte)
    (ha : a + bs.length ≤ n) : Memory.below n (Memory.writeBytes m a bs) := by
  induction bs generalizing m a with
  | nil => exact h
  | cons b bs ih =>
    simp only [List.length_cons] at ha
    exact ih (Memory.write_below h (by omega) b) (a + 1) (by omega)

/-- What every address reads as after a run of writes. -/
theorem Memory.read_writeBytes {m : Memory} (h : Memory.wf m) (a x : Nat) (bs : List Byte) :
    Memory.read (Memory.writeBytes m a bs) x
      = if a ≤ x ∧ x < a + bs.length then bs.getD (x - a) 0#8 else Memory.read m x := by
  induction bs generalizing m a with
  | nil => simp [Memory.writeBytes]
  | cons b bs ih =>
    rw [Memory.writeBytes, ih (Memory.write_wf h a b), Memory.read_write h]
    by_cases hx : x = a
    · subst hx; simp
    · by_cases hr : a + 1 ≤ x ∧ x < a + 1 + bs.length
      · have e : x - a = (x - (a + 1)) + 1 := by omega
        simp only [List.length_cons, if_pos hr, if_pos (show a ≤ x ∧ x < a + (bs.length + 1) by omega), e,
          List.getD_cons_succ]
      · simp only [List.length_cons, if_neg hr, if_neg (show ¬ (a ≤ x ∧ x < a + (bs.length + 1)) by omega), if_neg hx]

/-- A read of the bytes just written gives them. -/
theorem Memory.readBytes_writeBytes {m : Memory} (h : Memory.wf m) (a : Nat) (bs : List Byte) :
    Memory.readBytes (Memory.writeBytes m a bs) a bs.length = bs := by
  suffices H : ∀ (n k : Nat), k + n = bs.length →
      Memory.readBytes (Memory.writeBytes m a bs) (a + k) n = bs.drop k by
    have h0 := H bs.length 0 (by simp)
    rwa [Nat.add_zero, List.drop_zero] at h0
  intro n
  induction n with
  | zero => intro k hk; simp [Memory.readBytes]; omega
  | succ n ih =>
    intro k hk
    have hlt : k < bs.length := by omega
    rw [Memory.readBytes, Memory.read_writeBytes h, if_pos (by omega), Nat.add_assoc, ih (k + 1) (by omega)]
    rw [List.drop_eq_getElem_cons hlt, Nat.add_sub_cancel_left, List.getD_eq_getElem _ _ hlt]

end Sys2Proof.Machine
end

