-- ==== Sys2Proof/Laws/State.lean ====
section
/-!
SUPPORT. What each update of a State field leaves and writes: one lemma per field per update, true by rfl.
-/

namespace Sys2Proof.Machine

variable (s : State)

@[simp] theorem setCfg_par (v : Cfg) : (s.setCfg v).par = s.par := rfl
@[simp] theorem setCfg_cfg (v : Cfg) : (s.setCfg v).cfg = v := rfl
@[simp] theorem setCfg_asm (v : Cfg) : (s.setCfg v).asm = s.asm := rfl
@[simp] theorem setCfg_fb (v : Cfg) : (s.setCfg v).fb = s.fb := rfl
@[simp] theorem setCfg_rx (v : Cfg) : (s.setCfg v).rx = s.rx := rfl
@[simp] theorem setCfg_tx (v : Cfg) : (s.setCfg v).tx = s.tx := rfl
@[simp] theorem setCfg_msg (v : Cfg) : (s.setCfg v).msg = s.msg := rfl
@[simp] theorem setCfg_ack (v : Cfg) : (s.setCfg v).ack = s.ack := rfl
@[simp] theorem setCfg_resp (v : Cfg) : (s.setCfg v).resp = s.resp := rfl
@[simp] theorem setCfg_inputs (v : Cfg) : (s.setCfg v).inputs = s.inputs := rfl

@[simp] theorem setAsm_par (v : Asm) : (s.setAsm v).par = s.par := rfl
@[simp] theorem setAsm_cfg (v : Asm) : (s.setAsm v).cfg = s.cfg := rfl
@[simp] theorem setAsm_asm (v : Asm) : (s.setAsm v).asm = v := rfl
@[simp] theorem setAsm_fb (v : Asm) : (s.setAsm v).fb = s.fb := rfl
@[simp] theorem setAsm_rx (v : Asm) : (s.setAsm v).rx = s.rx := rfl
@[simp] theorem setAsm_tx (v : Asm) : (s.setAsm v).tx = s.tx := rfl
@[simp] theorem setAsm_msg (v : Asm) : (s.setAsm v).msg = s.msg := rfl
@[simp] theorem setAsm_ack (v : Asm) : (s.setAsm v).ack = s.ack := rfl
@[simp] theorem setAsm_resp (v : Asm) : (s.setAsm v).resp = s.resp := rfl
@[simp] theorem setAsm_inputs (v : Asm) : (s.setAsm v).inputs = s.inputs := rfl

@[simp] theorem setFb_par (v : Memory) : (s.setFb v).par = s.par := rfl
@[simp] theorem setFb_cfg (v : Memory) : (s.setFb v).cfg = s.cfg := rfl
@[simp] theorem setFb_asm (v : Memory) : (s.setFb v).asm = s.asm := rfl
@[simp] theorem setFb_fb (v : Memory) : (s.setFb v).fb = v := rfl
@[simp] theorem setFb_rx (v : Memory) : (s.setFb v).rx = s.rx := rfl
@[simp] theorem setFb_tx (v : Memory) : (s.setFb v).tx = s.tx := rfl
@[simp] theorem setFb_msg (v : Memory) : (s.setFb v).msg = s.msg := rfl
@[simp] theorem setFb_ack (v : Memory) : (s.setFb v).ack = s.ack := rfl
@[simp] theorem setFb_resp (v : Memory) : (s.setFb v).resp = s.resp := rfl
@[simp] theorem setFb_inputs (v : Memory) : (s.setFb v).inputs = s.inputs := rfl

@[simp] theorem setRx_par (v : List Byte) : (s.setRx v).par = s.par := rfl
@[simp] theorem setRx_cfg (v : List Byte) : (s.setRx v).cfg = s.cfg := rfl
@[simp] theorem setRx_asm (v : List Byte) : (s.setRx v).asm = s.asm := rfl
@[simp] theorem setRx_fb (v : List Byte) : (s.setRx v).fb = s.fb := rfl
@[simp] theorem setRx_rx (v : List Byte) : (s.setRx v).rx = v := rfl
@[simp] theorem setRx_tx (v : List Byte) : (s.setRx v).tx = s.tx := rfl
@[simp] theorem setRx_msg (v : List Byte) : (s.setRx v).msg = s.msg := rfl
@[simp] theorem setRx_ack (v : List Byte) : (s.setRx v).ack = s.ack := rfl
@[simp] theorem setRx_resp (v : List Byte) : (s.setRx v).resp = s.resp := rfl
@[simp] theorem setRx_inputs (v : List Byte) : (s.setRx v).inputs = s.inputs := rfl

@[simp] theorem setTx_par (v : List Byte) : (s.setTx v).par = s.par := rfl
@[simp] theorem setTx_cfg (v : List Byte) : (s.setTx v).cfg = s.cfg := rfl
@[simp] theorem setTx_asm (v : List Byte) : (s.setTx v).asm = s.asm := rfl
@[simp] theorem setTx_fb (v : List Byte) : (s.setTx v).fb = s.fb := rfl
@[simp] theorem setTx_rx (v : List Byte) : (s.setTx v).rx = s.rx := rfl
@[simp] theorem setTx_tx (v : List Byte) : (s.setTx v).tx = v := rfl
@[simp] theorem setTx_msg (v : List Byte) : (s.setTx v).msg = s.msg := rfl
@[simp] theorem setTx_ack (v : List Byte) : (s.setTx v).ack = s.ack := rfl
@[simp] theorem setTx_resp (v : List Byte) : (s.setTx v).resp = s.resp := rfl
@[simp] theorem setTx_inputs (v : List Byte) : (s.setTx v).inputs = s.inputs := rfl

@[simp] theorem setMsg_par (v : Message) : (s.setMsg v).par = s.par := rfl
@[simp] theorem setMsg_cfg (v : Message) : (s.setMsg v).cfg = s.cfg := rfl
@[simp] theorem setMsg_asm (v : Message) : (s.setMsg v).asm = s.asm := rfl
@[simp] theorem setMsg_fb (v : Message) : (s.setMsg v).fb = s.fb := rfl
@[simp] theorem setMsg_rx (v : Message) : (s.setMsg v).rx = s.rx := rfl
@[simp] theorem setMsg_tx (v : Message) : (s.setMsg v).tx = s.tx := rfl
@[simp] theorem setMsg_msg (v : Message) : (s.setMsg v).msg = v := rfl
@[simp] theorem setMsg_ack (v : Message) : (s.setMsg v).ack = s.ack := rfl
@[simp] theorem setMsg_resp (v : Message) : (s.setMsg v).resp = s.resp := rfl
@[simp] theorem setMsg_inputs (v : Message) : (s.setMsg v).inputs = s.inputs := rfl

@[simp] theorem setAck_par (v : ReplyOutcome) : (s.setAck v).par = s.par := rfl
@[simp] theorem setAck_cfg (v : ReplyOutcome) : (s.setAck v).cfg = s.cfg := rfl
@[simp] theorem setAck_asm (v : ReplyOutcome) : (s.setAck v).asm = s.asm := rfl
@[simp] theorem setAck_fb (v : ReplyOutcome) : (s.setAck v).fb = s.fb := rfl
@[simp] theorem setAck_rx (v : ReplyOutcome) : (s.setAck v).rx = s.rx := rfl
@[simp] theorem setAck_tx (v : ReplyOutcome) : (s.setAck v).tx = s.tx := rfl
@[simp] theorem setAck_msg (v : ReplyOutcome) : (s.setAck v).msg = s.msg := rfl
@[simp] theorem setAck_ack (v : ReplyOutcome) : (s.setAck v).ack = v := rfl
@[simp] theorem setAck_resp (v : ReplyOutcome) : (s.setAck v).resp = s.resp := rfl
@[simp] theorem setAck_inputs (v : ReplyOutcome) : (s.setAck v).inputs = s.inputs := rfl

@[simp] theorem setResp_par (v : Option Response) : (s.setResp v).par = s.par := rfl
@[simp] theorem setResp_cfg (v : Option Response) : (s.setResp v).cfg = s.cfg := rfl
@[simp] theorem setResp_asm (v : Option Response) : (s.setResp v).asm = s.asm := rfl
@[simp] theorem setResp_fb (v : Option Response) : (s.setResp v).fb = s.fb := rfl
@[simp] theorem setResp_rx (v : Option Response) : (s.setResp v).rx = s.rx := rfl
@[simp] theorem setResp_tx (v : Option Response) : (s.setResp v).tx = s.tx := rfl
@[simp] theorem setResp_msg (v : Option Response) : (s.setResp v).msg = s.msg := rfl
@[simp] theorem setResp_ack (v : Option Response) : (s.setResp v).ack = s.ack := rfl
@[simp] theorem setResp_resp (v : Option Response) : (s.setResp v).resp = v := rfl
@[simp] theorem setResp_inputs (v : Option Response) : (s.setResp v).inputs = s.inputs := rfl

@[simp] theorem setInputs_par (v : List Input) : (s.setInputs v).par = s.par := rfl
@[simp] theorem setInputs_cfg (v : List Input) : (s.setInputs v).cfg = s.cfg := rfl
@[simp] theorem setInputs_asm (v : List Input) : (s.setInputs v).asm = s.asm := rfl
@[simp] theorem setInputs_fb (v : List Input) : (s.setInputs v).fb = s.fb := rfl
@[simp] theorem setInputs_rx (v : List Input) : (s.setInputs v).rx = s.rx := rfl
@[simp] theorem setInputs_tx (v : List Input) : (s.setInputs v).tx = s.tx := rfl
@[simp] theorem setInputs_msg (v : List Input) : (s.setInputs v).msg = s.msg := rfl
@[simp] theorem setInputs_ack (v : List Input) : (s.setInputs v).ack = s.ack := rfl
@[simp] theorem setInputs_resp (v : List Input) : (s.setInputs v).resp = s.resp := rfl
@[simp] theorem setInputs_inputs (v : List Input) : (s.setInputs v).inputs = v := rfl

end Sys2Proof.Machine
end

