-- ==== Sys2Proof/Laws/Ops.lean ====
section
/-!
SUPPORT. What each shared operation can do, said once; the provers cite these instead of unfolding the operations.
-/

namespace Sys2Proof.Machine

@[simp] theorem andThen_next {α β : Type} (a : α) (k : α → Res β) : andThen (.next a) k = k a := rfl

@[simp] theorem andThen_fault {α β : Type} (f : Fault) (k : α → Res β) : andThen (.fault f) k = .fault f := rfl

@[simp] theorem andThen_refused {α β : Type} (f : Refusal) (k : α → Res β) : andThen (.refused f) k = .refused f := rfl

/-- A sequence that answers a next state did so in both parts. -/
theorem andThen_eq_next {α β : Type} {r : Res α} {k : α → Res β} {b : β} (h : andThen r k = .next b) :
    ∃ a, r = .next a ∧ k a = .next b := by
  cases r with
  | next a => exact ⟨a, rfl, h⟩
  | fault f => simp at h
  | refused f => simp at h

theorem setAsm_self (s : State) : s.setAsm s.asm = s := rfl

theorem setRx_self (s : State) : s.setRx s.rx = s := rfl

theorem setTx_self (s : State) : s.setTx s.tx = s := rfl

@[simp] theorem respond_fields (s : State) (r : Response) :
    (s.respond r).par = s.par ∧ (s.respond r).cfg = s.cfg ∧ (s.respond r).asm = s.asm ∧ (s.respond r).fb = s.fb
      ∧ (s.respond r).rx = s.rx ∧ (s.respond r).tx = s.tx ∧ (s.respond r).msg = s.msg ∧ (s.respond r).ack = s.ack
      ∧ (s.respond r).resp = some r ∧ (s.respond r).inputs = s.inputs :=
  ⟨rfl, rfl, rfl, rfl, rfl, rfl, rfl, rfl, rfl, rfl⟩

theorem raiseStatus_eq (k : Status) (s : State) : raiseStatus k s = .next (s.respond (.plain k)) := rfl

theorem raisePoll_eq (k : Status) (s : State) :
    raisePoll k s = .next (s.respond (.polled k Message.absent .none .none)) := rfl

theorem rxPeek_eq {k : Nat} {s : State} (h : k < s.rx.length) : rxPeek k s = .next (byteAt s.rx k) := by
  simp [rxPeek, byteAt, h]

theorem rxRead_eq {n : Nat} {s : State} (h : n ≤ s.rx.length) :
    rxRead n s = .next (s.rx.take n, s.setRx (s.rx.drop n)) := by
  simp [rxRead, State.rxAvail, h]

theorem txWrite_eq {f : List Byte} {s : State} (h : f.length ≤ s.txFree) : txWrite f s = .next (s.setTx (s.tx ++ f)) := by
  simp [txWrite, h]

theorem fbWrite_eq {bs : List Byte} {s : State} (h : bs.length ≤ s.par.bufMax.toNat) :
    fbWrite bs s = .next (s.setFb (Memory.writeBytes s.fb 0 bs)) := by
  simp [fbWrite, h]

/-- FB reads back what was just stored at its start. -/
theorem fbRead_written {s : State} (h : s.fb.wf) (bs : List Byte) :
    (s.setFb (Memory.writeBytes s.fb 0 bs)).fbRead bs.length = bs :=
  Memory.readBytes_writeBytes h 0 bs

theorem minHalf_toNat (a b : Half) : (minHalf a b).toNat = min a.toNat b.toNat := by
  simp only [minHalf]; split <;> omega

/-- SendReply writes the frame whole or nothing, and never stops (R169). -/
theorem sendReply_eq (id : Half) (p : List Byte) (s : State) :
    sendReply id p s
      = .next (if (encodeMessage s.cfg.mode id 0x00#8 p).length ≤ s.txFree
          then (.sent, s.setTx (s.tx ++ encodeMessage s.cfg.mode id 0x00#8 p)) else (.txFull, s)) := by
  simp only [sendReply]
  by_cases h : (encodeMessage s.cfg.mode id 0x00#8 p).length ≤ s.txFree
  · simp [h, txWrite_eq h, Nat.not_lt.2 h]
  · simp [h, Nat.lt_of_not_le h]

/-- One POLL discard: the head byte goes, `asm` is Idle, the status is reported (R135, R136). -/
theorem discardOne_eq {k : Status} {s : State} (h : 0 < s.rx.length) :
    discardOne k s
      = .next (((s.setRx s.rx.tail).setAsm .idle).respond (.polled k Message.absent .none .none)) := by
  rw [discardOne, rxRead_eq (by omega)]; simp [raisePoll_eq]

theorem endByteOk_eq {s : State} (h : hl s.cfg.mode ≤ s.rx.length) :
    endByteOk s = .next (!hasEnd s.cfg.mode || decide (byteAt s.rx (offEnd s.cfg.mode) = endByte)) := by
  simp only [endByteOk]
  split
  · rename_i he
    rw [rxPeek_eq (Nat.lt_of_lt_of_le (offEnd_lt_hl _) h)]; simp [he]
  · rename_i he; simp [he]

/-- What the scan leaves begins with the start byte, or is empty (R133). -/
theorem scanned_head (rx : List Byte) : scanned rx = [] ∨ ∃ tail, scanned rx = startByte :: tail := by
  induction rx with
  | nil => exact .inl rfl
  | cons b bs ih =>
    by_cases h : b = startByte
    · exact .inr ⟨bs, by simp [scanned, h]⟩
    · simpa [scanned, h] using ih

/-- The scan discards bytes from the head only. -/
theorem scanned_drop (rx : List Byte) : ∃ n, n ≤ rx.length ∧ scanned rx = rx.drop n := by
  induction rx with
  | nil => exact ⟨0, by simp [scanned]⟩
  | cons b bs ih =>
    by_cases h : b = startByte
    · exact ⟨0, by simp [scanned, h]⟩
    · obtain ⟨n, hn, e⟩ := ih
      exact ⟨n + 1, by simpa using hn, by simp [scanned, h, e]⟩

/-- The scan discards exactly the bytes that are no start byte (R133). -/
theorem scanned_append {junk : List Byte} (h : ∀ b ∈ junk, b ≠ startByte) (rx : List Byte) :
    scanned (junk ++ rx) = scanned rx := by
  induction junk with
  | nil => rfl
  | cons b bs ih =>
    have hb : b ≠ startByte := h b (by simp)
    simpa [scanned, hb] using ih fun c hc => h c (List.mem_cons_of_mem _ hc)

@[simp] theorem scanned_start (tail : List Byte) : scanned (startByte :: tail) = startByte :: tail := by simp [scanned]

/-- The dispatcher's choice of action is the decoder's (R76, R160). -/
theorem dispatchAction_eq (s : State) : dispatchAction s = exec (decodeDataId s.msg.dataId) s := by
  simp only [dispatchAction, decodeDataId]
  repeat' split
  all_goals rfl

/-- An instruction's encoding as a frame, whatever the Mode (R72). -/
theorem encode_frameInstr (m : Mode) (f : Byte) (i c : Half) (p : List Byte) :
    encode (frameInstr m f i c p) = frameBytes m f i c p := by
  cases m <;> simp [frameInstr, encode, frameBytes, hasStart, hasCrc, hasEnd]

/-- The meaning of every frame row is the one shared operation on its bytes (log 10). -/
theorem exec_frameInstr (m : Mode) (f : Byte) (i c : Half) (p : List Byte) (s : State) :
    exec (frameInstr m f i c p) s = runFrame m (frameBytes m f i c p) s := by
  cases m <;> simp [frameInstr, exec, execFrameFull, execFrameStartOnly, execFrameDelimCrc, execFrameNoCrc]
  exact congrArg (fun b => runFrame .noCrc b s) (frameBytes_noCrc f i c p).symm

/-- A decoded frame is a message or ABSENT with CORRUPT_FRAME (R115). -/
theorem decodeMessage_cases (m : Mode) (fb : List Byte) :
    decodeMessage m fb = (.corruptFrame, Message.absent)
      ∨ ((decodeMessage m fb).1 = .message ∧ hl m + (byteAt fb (offLen m)).toNat ≤ fb.length
          ∧ (decodeMessage m fb).2.size = byteAt fb (offLen m)
          ∧ (decodeMessage m fb).2.payload.length = (byteAt fb (offLen m)).toNat) := by
  simp only [decodeMessage]
  split
  · exact .inl rfl
  split
  · exact .inl rfl
  split
  · exact .inl rfl
  · rename_i h
    exact .inr ⟨rfl, by omega, rfl, by simp; omega⟩

end Sys2Proof.Machine
end

