-- ==== Sys2Proof/Laws/Assembler.lean ====
section
/-!
SUPPORT. What steps 3 to 8 of POLL can do, said once without the primitives, and what a POLL is after its scan.
-/

namespace Sys2Proof.Machine

/-- Steps 3 to 8 of POLL as the five cases of R140 that they decide: no peek or read of theirs leaves RX. -/
theorem assembleFrame_eq (s : State) :
    assembleFrame s
      = if s.rx.length < hl s.cfg.mode then .next (s.respond (.polled .noMessage Message.absent .none .none))
        else if hasEnd s.cfg.mode = true ∧ byteAt s.rx (offEnd s.cfg.mode) ≠ endByte then
          .next (((s.setRx s.rx.tail).setAsm .idle).respond (.polled .misaligned Message.absent .none .none))
        else if oversize (byteAt s.rx (offLen s.cfg.mode)) s = true then
          .next (((s.setRx s.rx.tail).setAsm .idle).respond (.polled .frameTooLarge Message.absent .none .none))
        else if s.rx.length < (byteAt s.rx (offLen s.cfg.mode)).toNat + hl s.cfg.mode then
          .next (s.respond (.polled .noMessage Message.absent .none .none))
        else
          runFrame s.cfg.mode (s.rx.take ((byteAt s.rx (offLen s.cfg.mode)).toNat + hl s.cfg.mode))
            (s.setRx (s.rx.drop ((byteAt s.rx (offLen s.cfg.mode)).toNat + hl s.cfg.mode))) := by
  simp only [assembleFrame, State.rxAvail]
  by_cases h3 : s.rx.length < hl s.cfg.mode
  · simp [h3, raisePoll_eq]
  · have h3' : hl s.cfg.mode ≤ s.rx.length := by omega
    have h0 : 0 < s.rx.length := by have := hl_pos s.cfg.mode; omega
    rw [if_neg h3, if_neg h3, rxPeek_eq (Nat.lt_of_lt_of_le (offLen_lt_hl _) h3'), andThen_next, endByteOk_eq h3',
      andThen_next]
    by_cases h5 : hasEnd s.cfg.mode = true ∧ byteAt s.rx (offEnd s.cfg.mode) ≠ endByte
    · rw [if_pos h5, if_pos (by simp [h5.1, h5.2]), discardOne_eq h0]
    · have h5' : ¬ ((!hasEnd s.cfg.mode || decide (byteAt s.rx (offEnd s.cfg.mode) = endByte)) = false) := by
        rw [not_and_not_right] at h5
        simpa using fun he => h5 he
      rw [if_neg h5, if_neg h5']
      by_cases h6 : oversize (byteAt s.rx (offLen s.cfg.mode)) s = true
      · rw [if_pos h6, if_pos h6, discardOne_eq h0]
      · rw [if_neg h6, if_neg h6]
        by_cases h7 : s.rx.length < (byteAt s.rx (offLen s.cfg.mode)).toNat + hl s.cfg.mode
        · rw [if_pos h7, if_pos h7, raisePoll_eq]
        · rw [if_neg h7, if_neg h7, rxRead_eq (by omega), andThen_next]

/-- POLL of an open session that does not scan is steps 3 to 8 (R131, R132). -/
theorem execPoll_no_scan {s : State} (ho : s.cfg.opened = true) (h : ¬ (hasStart s.cfg.mode = true ∧ s.asm = .idle)) :
    execPoll s = assembleFrame s := by
  simp only [execPoll, ho, if_neg h]; simp

/-- POLL of an open session that scans: what the scan leaves decides (R132, R133). -/
theorem execPoll_scan {s : State} (ho : s.cfg.opened = true) (hs : hasStart s.cfg.mode = true) (hi : s.asm = .idle) :
    execPoll s
      = if scanned s.rx = [] then
          .next ((s.setRx (scanned s.rx)).respond (.polled .noMessage Message.absent .none .none))
        else assembleFrame ((s.setRx (scanned s.rx)).setAsm .syncing) := by
  have hc : hasStart s.cfg.mode = true ∧ s.asm = .idle := ⟨hs, hi⟩
  simp only [execPoll, ho, if_pos hc, State.rxAvail]
  by_cases h0 : s.rx = []
  · have e : s.setRx [] = s := h0 ▸ setRx_self s
    simp [h0, scanned, raisePoll_eq, e]
  · by_cases h1 : scanned s.rx = []
    · simp [h0, h1, raisePoll_eq]
    · simp [h0, h1]

/-- A consumed frame that fits FB, by the result of decoding its bytes (R138, R139). -/
theorem runFrame_eq {m : Mode} {bytes : List Byte} {s : State} (hw : s.fb.wf) (hb : bytes.length ≤ s.par.bufMax.toNat) :
    runFrame m bytes s
      = (let s1 := (s.setFb (Memory.writeBytes s.fb 0 bytes)).setAsm .idle
         if (decodeMessage m bytes).1 = .corruptFrame then raisePoll .corruptFrame s1
         else if (decodeMessage m bytes).2.dataId = 0x0000#16 then execSysNone s1
         else dispatch (decodeMessage m bytes).2 s1) := by
  simp only [runFrame]
  rw [fbWrite_eq hb, andThen_next]
  have e : ((s.setFb (Memory.writeBytes s.fb 0 bytes)).setAsm .idle).fbRead bytes.length = bytes := fbRead_written hw bytes
  rw [e]

/-- The recorded outcome of an acknowledge (R161). -/
theorem execAckFlag_eq (x : BitVec 7) (s : State) :
    execAckFlag x s
      = .next (if (encodeMessage s.cfg.mode 0x0006#16 0x00#8 (beBytes s.msg.dataId)).length ≤ s.txFree
          then (s.setTx (s.tx ++ encodeMessage s.cfg.mode 0x0006#16 0x00#8 (beBytes s.msg.dataId))).setAck .sent
          else s.setAck .txFull) := by
  rw [execAckFlag, sendReply_eq, andThen_next]; split <;> rfl

end Sys2Proof.Machine
end

