-- ==== Sys2Proof/Laws/Inversion.lean ====
section
/-!
SUPPORT. What a step can do, said once: one inversion lemma for each shared operation that answers a next state.
-/

namespace Sys2Proof.Machine

/-- R136's condition, as a proposition. -/
theorem oversize_iff (b : Byte) (s : State) :
    oversize b s = true ↔ s.cfg.bufCap.toNat < b.toNat + hl s.cfg.mode ∨ s.cfg.maxPayload.toNat < b.toNat := by
  simp [oversize]

/-- The Acknowledge frame that a message with this dataId asks for (R161). -/
def ackReply (m : Mode) (i : Half) : List Byte := encodeMessage m 0x0006#16 0x00#8 (beBytes i)

/-- The Ping-reply frame (R162). -/
def pingReply (m : Mode) : List Byte := encodeMessage m 0x0002#16 0x00#8 [0x00#8]

@[simp] theorem ackReply_length (m : Mode) (i : Half) : (ackReply m i).length = hl m + 2 := by
  simp [ackReply, encodeMessage, beBytes]

@[simp] theorem pingReply_length (m : Mode) : (pingReply m).length = hl m + 1 := by simp [pingReply, encodeMessage]

/-- Steps 3 to 8 of POLL end without a frame, with one byte discarded, or by consuming a frame that FB's capacity admits. -/
theorem assemble_inv {s t : State} (h : assembleFrame s = .next t) :
    (∃ k, k ≠ .message ∧ t = s.respond (.polled k Message.absent .none .none))
    ∨ (∃ k, k ≠ .message ∧ t = ((s.setRx s.rx.tail).setAsm .idle).respond (.polled k Message.absent .none .none))
    ∨ (∃ n, n ≤ s.rx.length ∧ n ≤ s.cfg.bufCap.toNat
        ∧ runFrame s.cfg.mode (s.rx.take n) (s.setRx (s.rx.drop n)) = .next t) := by
  rw [assembleFrame_eq] at h
  split at h
  · cases h; exact .inl ⟨_, by decide, rfl⟩
  split at h
  · cases h; exact .inr (.inl ⟨_, by decide, rfl⟩)
  split at h
  · cases h; exact .inr (.inl ⟨_, by decide, rfl⟩)
  split at h
  · cases h; exact .inl ⟨_, by decide, rfl⟩
  rename_i ho hlt
  rw [oversize_iff] at ho
  exact .inr (.inr ⟨_, by omega, by omega, h⟩)

/-- A POLL drops bytes from the head of RX and reports, or drops bytes, then consumes a frame. -/
theorem poll_inv {s t : State} (h : execPoll s = .next t) :
    (∃ n a k, n ≤ s.rx.length ∧ k ≠ .message
        ∧ t = ((s.setRx (s.rx.drop n)).setAsm a).respond (.polled k Message.absent .none .none)
        ∧ (a = .syncing →
            (s.cfg.opened = true ∧ hasStart s.cfg.mode = true ∧ (s.rx.drop n).head? = some startByte)
            ∨ (n = 0 ∧ s.asm = .syncing)))
    ∨ (s.cfg.opened = true ∧ ∃ j n a, j + n ≤ s.rx.length ∧ n ≤ s.cfg.bufCap.toNat ∧
        runFrame s.cfg.mode ((s.rx.drop j).take n) ((s.setRx (s.rx.drop (j + n))).setAsm a) = .next t) := by
  by_cases ho : s.cfg.opened = true
  · by_cases hs : hasStart s.cfg.mode = true ∧ s.asm = .idle
    · rw [execPoll_scan ho hs.1 hs.2] at h
      obtain ⟨n, hn, e⟩ := scanned_drop s.rx
      split at h
      · cases h
        refine .inl ⟨n, .idle, .noMessage, hn, (by decide), ?_, by simp⟩
        rw [← e, ← hs.2]; rfl
      · rename_i hne
        have hh := (scanned_head s.rx).resolve_left hne
        obtain ⟨tl, htl⟩ := hh
        rcases assemble_inv h with ⟨k, hk, rfl⟩ | ⟨k, hk, rfl⟩ | ⟨q, h1, h2, h3⟩
        · refine .inl ⟨n, .syncing, k, hn, hk, by rw [← e], fun _ => .inl ⟨ho, hs.1, by rw [← e, htl]; rfl⟩⟩
        · have hl1 : n < s.rx.length := by
            by_contra hc
            have : s.rx.drop n = [] := List.drop_eq_nil_of_le (by omega)
            rw [← e] at this; exact hne this
          refine .inl ⟨n + 1, .idle, k, hl1, hk, ?_, by simp⟩
          simp [e]; rfl
        · refine .inr ⟨ho, n, q, .syncing, ?_, h2, ?_⟩
          · simp [e] at h1; omega
          · rw [← h3]; simp [e]; rfl
    · rw [execPoll_no_scan ho hs] at h
      rcases assemble_inv h with ⟨k, hk, rfl⟩ | ⟨k, hk, rfl⟩ | ⟨q, h1, h2, h3⟩
      · exact .inl ⟨0, s.asm, k, by omega, hk, rfl, fun h => .inr ⟨rfl, h⟩⟩
      · by_cases h0 : s.rx = []
        · exact .inl ⟨0, .idle, k, by omega, hk, by simp [h0], by simp⟩
        · have := List.length_pos_iff.2 h0
          exact .inl ⟨1, .idle, k, by omega, hk, by simp, by simp⟩
      · exact .inr ⟨ho, 0, q, s.asm, by omega, h2, by rw [show ((s.setRx (s.rx.drop (0 + q))).setAsm s.asm) = s.setRx (s.rx.drop q) by rw [Nat.zero_add]; rfl]; exact h3⟩
  · have : s.cfg.opened = false := by simpa using ho
    simp [execPoll, this, raisePoll_eq] at h
    exact .inl ⟨0, s.asm, _, by omega, (by decide : Status.notOpen ≠ .message), h.symm, fun h => .inr ⟨rfl, h⟩⟩

/-- A reply is written whole or not at all, and fits what TX had free (R169). -/
theorem sendReply_inv (id : Half) (p : List Byte) (s : State) :
    ∃ o w, (w = [] ∨ w = encodeMessage s.cfg.mode id 0x00#8 p) ∧ sendReply id p s = .next (o, s.setTx (s.tx ++ w))
      ∧ w.length ≤ s.txFree := by
  rw [sendReply_eq]
  split
  · rename_i h; exact ⟨_, _, .inr rfl, rfl, h⟩
  · exact ⟨.txFull, [], .inl rfl, by simp [setTx_self], by simp⟩

/-- The dataId action writes at most a Ping-reply, and reports the message or ABSENT. -/
theorem dispatchAction_inv (s : State) :
    ∃ r k o, dispatchAction s
        = .next ((s.setTx (s.tx ++ r)).respond (.polled k (if k = .message then s.msg else Message.absent)
            (if s.msg.dataId = 0#16 then .none else s.ack) o))
      ∧ (r = [] ∨ r = pingReply s.cfg.mode) ∧ r.length ≤ s.txFree := by
  have fin : ∀ k, ∃ r k' o,
      (Host.Outcome.next (s.respond (.polled k (if k = .message then s.msg else Message.absent) s.ack .none)) : Res State)
        = .next ((s.setTx (s.tx ++ r)).respond (.polled k' (if k' = .message then s.msg else Message.absent) s.ack o))
      ∧ (r = [] ∨ r = pingReply s.cfg.mode) ∧ r.length ≤ s.txFree :=
    fun k => ⟨[], k, .none, by simp [setTx_self], .inl rfl, by simp⟩
  unfold dispatchAction
  simp only
  split
  · rename_i h0
    exact ⟨[], .noMessage, .none, by simp [execSysNone, raisePoll_eq, setTx_self], .inl rfl, by simp⟩
  rename_i h0
  split
  · obtain ⟨o, w, hw, e, hl⟩ := sendReply_inv 0x0002#16 [0x00#8] s
    exact ⟨w, .noMessage, o, by rw [execPing, e, andThen_next]; simp [suppressed, dispatched], hw, hl⟩
  split
  · exact fin .noMessage
  split
  · exact fin .noMessage
  split
  · exact fin .noMessage
  split
  · exact fin .noMessage
  split
  · exact fin .noMessage
  · exact fin .message

/-- Dispatch writes at most an Acknowledge and then a Ping-reply, both within what TX had free. -/
theorem dispatch_inv (r : Message) (s : State) :
    ∃ a w k b o, dispatch r s
        = .next ((((s.setMsg r).setAck a).setTx (s.tx ++ w ++ b)).respond
            (.polled k (if k = .message then r else Message.absent) (if r.dataId = 0#16 then ReplyOutcome.none else a) o))
      ∧ (w = [] ∨ w = ackReply s.cfg.mode r.dataId) ∧ (b = [] ∨ b = pingReply s.cfg.mode)
      ∧ (w ++ b).length ≤ s.txFree := by
  simp only [dispatch]
  split
  · rw [execAckFlag_eq, andThen_next]
    split
    · rename_i hf
      obtain ⟨b, k, o, e, hb, hlen⟩ := dispatchAction_inv ((((s.setMsg r).setAck .none).setTx (s.tx ++ ackReply s.cfg.mode r.dataId)).setAck .sent)
      refine ⟨.sent, ackReply s.cfg.mode r.dataId, k, b, o, ?_, .inr rfl, hb, ?_⟩
      · exact e
      · have hf' : (ackReply s.cfg.mode r.dataId).length ≤ s.par.txCap.toNat - s.tx.length := hf
        have hb' : b.length ≤ s.par.txCap.toNat - (s.tx ++ ackReply s.cfg.mode r.dataId).length := hlen
        rw [List.length_append] at hb' ⊢
        show _ ≤ s.par.txCap.toNat - s.tx.length
        omega
    · obtain ⟨b, k, o, e, hb, hlen⟩ := dispatchAction_inv (((s.setMsg r).setAck .none).setAck .txFull)
      refine ⟨.txFull, [], k, b, o, ?_, .inl rfl, hb, by simp; exact hlen⟩
      rw [e]; simp; rfl
  · obtain ⟨b, k, o, e, hb, hlen⟩ := dispatchAction_inv ((s.setMsg r).setAck .none)
    refine ⟨.none, [], k, b, o, ?_, .inl rfl, hb, by simp; exact hlen⟩
    rw [e]; simp only [List.append_nil]; rfl

/-- A consumed frame fits FB, leaves Idle, and writes at most the two replies. -/
theorem runFrame_inv {m : Mode} {bs : List Byte} {s t : State} (h : runFrame m bs s = .next t) :
    bs.length ≤ s.par.bufMax.toNat
    ∧ ∃ a mm w b k r o1 o2,
      t = (((((s.setFb (Memory.writeBytes s.fb 0 bs)).setAsm .idle).setMsg mm).setAck a).setTx (s.tx ++ w ++ b)).respond
            (.polled k r o1 o2)
      ∧ (w = [] ∨ ∃ i, w = ackReply s.cfg.mode i) ∧ (b = [] ∨ b = pingReply s.cfg.mode)
      ∧ (w ++ b).length ≤ s.txFree
      ∧ (k ≠ .message → r = Message.absent) ∧ (k = .message → r.size.toNat = r.payload.length) := by
  simp only [runFrame] at h
  obtain ⟨s1, h1, h2⟩ := andThen_eq_next h
  simp only [fbWrite] at h1
  split at h1
  · rename_i hb
    cases h1
    refine ⟨hb, ?_⟩
    generalize hq : ((s.setFb (Memory.writeBytes s.fb 0 bs)).setAsm .idle) = s2 at *
    have e1 : s2.tx = s.tx := by rw [← hq]; rfl
    have e2 : s2.cfg = s.cfg := by rw [← hq]; rfl
    have e3 : s2.txFree = s.txFree := by rw [← hq]; rfl
    generalize hd : decodeMessage m (s2.fbRead bs.length) = d at *
    have hdc := decodeMessage_cases m (s2.fbRead bs.length)
    rw [hd] at hdc
    split at h2
    · cases h2
      refine ⟨s2.ack, s2.msg, [], [], .corruptFrame, Message.absent, .none, .none, ?_, .inl rfl, .inl rfl, by simp, fun _ => rfl, by simp⟩
      rw [← e1]; simp; rfl
    · split at h2
      · cases h2
        refine ⟨s2.ack, s2.msg, [], [], .noMessage, Message.absent, .none, .none, ?_, .inl rfl, .inl rfl, by simp, fun _ => rfl, by simp⟩
        rw [← e1]; simp; rfl
      · obtain ⟨a, w, k, b, o, e, hw, hb', hl'⟩ := dispatch_inv d.2 s2
        rw [e] at h2; cases h2
        refine ⟨a, _, w, b, k, _, _, _, by rw [← e1], ?_, ?_, ?_, ?_, ?_⟩
        · rcases hw with rfl | rfl
          · exact .inl rfl
          · exact .inr ⟨_, by rw [e2]⟩
        · rw [← e2]; exact hb'
        · rw [← e3]; exact hl'
        · intro hk; simp [hk]
        · intro hk; simp [hk]
          rcases hdc with hh | ⟨_, _, h3, h4⟩
          · simp_all
          · rw [h3, h4]
  · cases h1

/-- The command decoder gives commands only. -/
theorem decodeCommand_format {bs : List Byte} {i : Instr} (h : decodeCommand bs = .ok i) :
    i.format = .command := by
  cases bs with
  | nil => simp [decodeCommand] at h
  | cons c ops =>
    simp only [decodeCommand] at h
    split at h
    · unfold decodeOpen at h; split at h
      · split at h <;> cases h; rfl
      · cases h
      · cases h
    split at h
    · unfold decodeSetBufferSize at h; split at h <;> cases h; rfl
    split at h
    · unfold decodeBare at h; split at h <;> cases h; rfl
    split at h
    · unfold decodeChecksum at h; split at h
      · simp only [takeExactly] at h; split at h
        · cases h
        · split at h <;> cases h; rfl
      · cases h
    split at h
    · unfold decodeEncode at h; split at h
      · split at h
        · cases h
        · simp only [takeExactly] at h; split at h
          · cases h
          · split at h <;> cases h; rfl
      · cases h
    split at h
    · unfold decodeDecode at h; split at h
      · split at h
        · cases h
        · simp only [takeExactly] at h; split at h
          · cases h
          · split at h <;> cases h; rfl
      · cases h
    split at h
    · unfold decodeBare at h; split at h <;> cases h; rfl
    split at h
    · unfold decodeSend at h; split at h
      · simp only [takeExactly] at h; split at h
        · cases h
        · split at h <;> cases h; rfl
      · cases h
    · unfold decodeBare at h; split at h <;> cases h; rfl

/-- A command other than POLL writes the configuration, `asm` and the tail of TX, nothing else, and only OPEN and
SET_BUFFER_SIZE write the configuration. -/
theorem command_inv (i : Instr) (hf : i.format = .command) (hp : i ≠ .poll) (s : State) :
    ∃ c a w r, exec i s = .next ((((s.setCfg c).setAsm a).setTx (s.tx ++ w)).respond r)
      ∧ w.length ≤ s.txFree
      ∧ ((c = s.cfg ∧ a = s.asm)
          ∨ (∃ n, i = .setBufferSize n ∧ a = s.asm ∧ c.opened = s.cfg.opened ∧ c.mode = s.cfg.mode
              ∧ c.maxPayload = s.cfg.maxPayload ∧ c.bufCap.toNat ≤ s.par.bufMax.toNat)
          ∨ (∃ m mp, i = .openSession m mp ∧ a = .idle ∧ c.bufCap.toNat ≤ s.par.bufMax.toNat))
      ∧ (∀ x y z q, r ≠ .polled x y z q)
      ∧ (∀ k x, r = .decoded k x →
          (k ≠ .message → x = Message.absent) ∧ (k = .message → x.size.toNat = x.payload.length)) := by
  have same : ∀ r : Response,
      s.respond r = (((s.setCfg s.cfg).setAsm s.asm).setTx (s.tx ++ [])).respond r := fun r => by simp; rfl
  cases i with
  | openSession m p =>
    refine ⟨⟨true, m, p, minHalf s.par.rxCap s.par.bufMax⟩, .idle, [], .plain .ok, by rw [exec, execOpenSession, List.append_nil]; rfl, by simp, .inr (.inr ⟨m, p, rfl, rfl, ?_⟩), by simp, by simp⟩
    simp [minHalf_toNat]
  | setBufferSize n =>
    by_cases ho : s.cfg.opened = false
    · exact ⟨s.cfg, s.asm, [], .plain .notOpen, by rw [exec, execSetBufferSize, if_pos ho, raiseStatus_eq, same], by simp, .inl ⟨rfl, rfl⟩,
        by simp, by simp⟩
    · refine ⟨{ s.cfg with bufCap := minHalf n s.par.bufMax }, s.asm, [], .plain .ok, by rw [exec, execSetBufferSize, if_neg ho, List.append_nil]; rfl, by simp, .inr (.inl ⟨n, rfl, rfl, rfl, rfl, rfl, ?_⟩), by simp, by simp⟩
      simp [minHalf_toNat]
  | getBufferSize =>
    by_cases ho : s.cfg.opened = false
    · exact ⟨s.cfg, s.asm, [], .plain .notOpen, by rw [exec, execGetBufferSize, if_pos ho, raiseStatus_eq, same], by simp, .inl ⟨rfl, rfl⟩,
        by simp, by simp⟩
    · exact ⟨s.cfg, s.asm, [], .bufferSize s.cfg.bufCap, by rw [exec, execGetBufferSize, if_neg ho, same], by simp, .inl ⟨rfl, rfl⟩,
        by simp, by simp⟩
  | checksum d => exact ⟨s.cfg, s.asm, [], _, by rw [exec, execChecksum, same], by simp, .inl ⟨rfl, rfl⟩,
        by simp, by simp⟩
  | encode m i f p => exact ⟨s.cfg, s.asm, [], _, by rw [exec, execEncode, same], by simp, .inl ⟨rfl, rfl⟩,
        by simp, by simp⟩
  | decode m b =>
    refine ⟨s.cfg, s.asm, [], _, by rw [exec, execDecode, same], by simp, .inl ⟨rfl, rfl⟩, by simp, ?_⟩
    intro k x e; cases e
    rcases decodeMessage_cases m b with h | ⟨h1, -, h3, h4⟩
    · simp [h]
    · rw [h1, h3, h4]; simp
  | poll => exact absurd rfl hp
  | send i f p =>
    simp only [exec, execSend]
    split
    · exact ⟨s.cfg, s.asm, [], _, by rw [raiseStatus_eq, same], by simp, .inl ⟨rfl, rfl⟩,
        by simp, by simp⟩
    split
    · exact ⟨s.cfg, s.asm, [], _, by rw [raiseStatus_eq, same], by simp, .inl ⟨rfl, rfl⟩,
        by simp, by simp⟩
    split
    · exact ⟨s.cfg, s.asm, [], _, by rw [raiseStatus_eq, same], by simp, .inl ⟨rfl, rfl⟩,
        by simp, by simp⟩
    · rename_i h
      rw [txWrite_eq (by omega), andThen_next]
      exact ⟨s.cfg, s.asm, _, _, rfl, by omega, .inl ⟨rfl, rfl⟩,
        by simp, by simp⟩
  | reservedCommand c => exact ⟨s.cfg, s.asm, [], _, by rw [exec, execReservedCommand, rejectCommand, raiseStatus_eq, same], by simp, .inl ⟨rfl, rfl⟩,
        by simp, by simp⟩
  | frameFull f i c p => cases hf
  | frameStartOnly f i c p => cases hf
  | frameDelimCrc f i c p => cases hf
  | frameNoCrc f i p => cases hf
  | sysNone => cases hf
  | ping => cases hf
  | pingReply => cases hf
  | subscribe => cases hf
  | unsubscribe => cases hf
  | forceUnsubscribe => cases hf
  | acknowledge => cases hf
  | application i => cases hf
  | ackFlag x => cases hf

/-- Only `0x20` decodes to POLL. -/
theorem decodeCommand_poll {ops : List Byte} (ho : decodeCommand ops = .ok .poll) : ops = [0x20#8] := by
  cases ops with
  | nil => cases ho
  | cons c ops =>
    simp only [decodeCommand] at ho
    split at ho
    · unfold decodeOpen at ho; split at ho
      · split at ho <;> cases ho
      · cases ho
      · cases ho
    split at ho
    · unfold decodeSetBufferSize at ho; split at ho <;> cases ho
    split at ho
    · unfold decodeBare at ho; split at ho <;> cases ho
    split at ho
    · unfold decodeChecksum at ho; split at ho
      · simp only [takeExactly] at ho; split at ho
        · cases ho
        · split at ho <;> cases ho
      · cases ho
    split at ho
    · unfold decodeEncode at ho; split at ho
      · split at ho
        · cases ho
        · simp only [takeExactly] at ho; split at ho
          · cases ho
          · split at ho <;> cases ho
      · cases ho
    split at ho
    · unfold decodeDecode at ho; split at ho
      · split at ho
        · cases ho
        · simp only [takeExactly] at ho; split at ho
          · cases ho
          · split at ho <;> cases ho
      · cases ho
    split at ho
    · rename_i hc; unfold decodeBare at ho; split at ho
      · rw [hc]
      · cases ho
    split at ho
    · unfold decodeSend at ho; split at ho
      · simp only [takeExactly] at ho; split at ho
        · cases ho
        · split at ho <;> cases ho
      · cases ho
    · unfold decodeBare at ho; split at ho <;> cases ho

/-- With no input nothing happens. -/
theorem step_nil {s : State} (hi : s.inputs = []) : step s = .next (s.setResp none) := by
  simp only [step, runNext, hi]

/-- An input is taken and runs. -/
theorem step_input {s : State} {i : Input} {rest : List Input} (hi : s.inputs = i :: rest) :
    step s = runInput i ((s.setInputs rest).setResp none) := by
  simp only [step, runNext, hi]

/-- What a step that goes on did. -/
theorem step_kinds {s t : State} (h : step s = .next t) :
   (s.inputs = [] ∧ t = s.setResp none)
   ∨ (∃ rest, s.inputs = Input.command [0x20#8] :: rest ∧ execPoll ((s.setInputs rest).setResp none) = .next t)
   ∨ (∃ rest bs e, s.inputs = .command bs :: rest ∧ decodeCommand bs = .error e
      ∧ t = ((s.setInputs rest).setResp none).respond (.plain .badCommand))
   ∨ (∃ rest bs i, s.inputs = .command bs :: rest ∧ decodeCommand bs = .ok i ∧ i ≠ .poll
      ∧ exec i ((s.setInputs rest).setResp none) = .next t)
   ∨ (∃ rest b, s.inputs = .rxArrive b :: rest ∧ t = rxArrive b ((s.setInputs rest).setResp none))
   ∨ (∃ rest, s.inputs = .txDrain :: rest ∧ t = txDrain ((s.setInputs rest).setResp none))
   ∨ (∃ rest, s.inputs = .powerOn :: rest ∧ t = powerOn ((s.setInputs rest).setResp none)) := by
  cases hi : s.inputs with
  | nil => rw [step_nil hi] at h; cases h; exact .inl ⟨rfl, rfl⟩
  | cons i rest =>
    rw [step_input hi] at h
    cases i with
    | command bs =>
      simp only [runInput, runCommand] at h
      cases hd : decodeCommand bs with
      | error e => rw [hd] at h; cases h; exact .inr (.inr (.inl ⟨rest, bs, e, rfl, hd, rfl⟩))
      | ok i =>
        rw [hd] at h
        by_cases hp : i = .poll
        · subst hp
          have : bs = [0x20#8] := decodeCommand_poll hd
          subst this
          exact .inr (.inl ⟨rest, rfl, h⟩)
        · exact .inr (.inr (.inr (.inl ⟨rest, bs, i, rfl, hd, hp, h⟩)))
    | rxArrive b => cases h; exact .inr (.inr (.inr (.inr (.inl ⟨rest, b, rfl, rfl⟩))))
    | txDrain => cases h; exact .inr (.inr (.inr (.inr (.inr (.inl ⟨rest, rfl, rfl⟩)))))
    | powerOn => cases h; exact .inr (.inr (.inr (.inr (.inr (.inr ⟨rest, rfl, rfl⟩)))))
    | foreignRead => cases h

end Sys2Proof.Machine
end

