-- ==== Sys2Proof/Laws/PerInstr.lean ====
section
/-!
SUPPORT. The family EncodedLength: an instruction's encoding has the length the opcode table gives its row.
-/

namespace Sys2Proof.Laws.EncodedLength

open Sys2Proof Sys2Proof.Machine

/-- The encoding has `length_bytes` bytes (R73, R79). -/
def Statement (i : Instr) : Prop := (Sys2Proof.encode i).length = i.lengthBytes

theorem openSession (m : Mode) (p : Byte) : Statement (.openSession m p) := rfl

theorem setBufferSize (n : Half) : Statement (.setBufferSize n) := rfl

theorem getBufferSize : Statement .getBufferSize := rfl

theorem checksum (d : List Byte) : Statement (.checksum d) := by simp [Statement, Sys2Proof.encode, Instr.lengthBytes, len16, beBytes]; omega

theorem encode (m : Mode) (i : Half) (f : Byte) (p : List Byte) : Statement (.encode m i f p) := by simp [Statement, Sys2Proof.encode, Instr.lengthBytes]; omega

theorem decode (m : Mode) (b : List Byte) : Statement (.decode m b) := by simp [Statement, Sys2Proof.encode, Instr.lengthBytes, len16, beBytes]; omega

theorem poll : Statement .poll := rfl

theorem send (i : Half) (f : Byte) (p : List Byte) : Statement (.send i f p) := by simp [Statement, Sys2Proof.encode, Instr.lengthBytes]; omega

theorem reservedCommand (c : Byte) : Statement (.reservedCommand c) := rfl

theorem frameFull (f : Byte) (i c : Half) (p : List Byte) : Statement (.frameFull f i c p) := frameBytes_length _ _ _ _ _

theorem frameStartOnly (f : Byte) (i c : Half) (p : List Byte) : Statement (.frameStartOnly f i c p) := frameBytes_length _ _ _ _ _

theorem frameDelimCrc (f : Byte) (i c : Half) (p : List Byte) : Statement (.frameDelimCrc f i c p) := frameBytes_length _ _ _ _ _

theorem frameNoCrc (f : Byte) (i : Half) (p : List Byte) : Statement (.frameNoCrc f i p) := frameBytes_length _ _ _ _ _

theorem sysNone : Statement .sysNone := rfl

theorem ping : Statement .ping := rfl

theorem pingReply : Statement .pingReply := rfl

theorem subscribe : Statement .subscribe := rfl

theorem unsubscribe : Statement .unsubscribe := rfl

theorem forceUnsubscribe : Statement .forceUnsubscribe := rfl

theorem acknowledge : Statement .acknowledge := rfl

theorem application (i : Half) : Statement (.application i) := rfl

theorem ackFlag (x : BitVec 7) : Statement (.ackFlag x) := rfl

end Sys2Proof.Laws.EncodedLength
end

