-- ==== Sys2Proof/Tests/Slice0.lean ====
section
/-!
SUPPORT. The model's own tests and the witnesses of the statements. Expected results are those of 95_test_vectors.md, the
encodings those of 30_encoding.md and of the vectors' command forms; the vector's number stands beside each.
-/

namespace Sys2Proof.Tests

open Sys2Proof Sys2Proof.Machine Sys2Proof.Claim

/-! ### Helpers -/

/-- An open, Idle session of Mode `m` as OPEN leaves it with the vectors' parameters, RX holding `rx`. -/
def session (m : Mode) (maxPayload : Byte) (rx : List Byte) : State :=
  ((State.reset.setCfg { opened := true, mode := m, maxPayload := maxPayload, bufCap := 64#16 }).setRx rx)

/-- The state after a step that goes on. -/
def after (o : Host.Outcome State Fault Refusal) : Option State :=
  match o with
  | .next t => some t
  | .fault _ => none
  | .refused _ => none

/-- The response and TX after a step. -/
def shown (o : Host.Outcome State Fault Refusal) : Option (Option Response × List Byte) :=
  (after o).map fun t => (t.resp, t.tx)

/-- The response, RX and `asm` after a step. -/
def received (o : Host.Outcome State Fault Refusal) : Option (Option Response × List Byte × Asm) :=
  (after o).map fun t => (t.resp, t.rx, t.asm)

/-- The step of one command in a state. -/
def stepOf (s : State) (bytes : List Byte) : Host.Outcome State Fault Refusal := step (s.setInputs [.command bytes])

/-- A Ping of Mode FULL (vector E1). -/
def pingFrame : List Byte := [0xFE#8, 0x00#8, 0x00#8, 0x00#8, 0x01#8, 0xFF#8, 0xFF#8, 0xEF#8]

/-- A Syncing session with a whole Ping in RX and a POLL to come. -/
def syncingPing : State := ((session .full 16#8 pingFrame).setAsm .syncing).setInputs [pollInput]

/-! ### WellFormed: an ill-formed term for each check is refused -/

theorem test_wf_checksum : (Instr.checksum (List.replicate 65536 0#8)).wf = false := by
  simp only [Instr.wf, fitsU16, List.length_replicate]; decide
theorem test_wf_encode : (Instr.encode .full 1#16 0#8 (List.replicate 256 0#8)).wf = false := by
  simp only [Instr.wf, fitsU8, List.length_replicate]; decide
theorem test_wf_decode : (Instr.decode .full (List.replicate 65536 0#8)).wf = false := by
  simp only [Instr.wf, fitsU16, List.length_replicate]; decide
theorem test_wf_send : (Instr.send 1#16 0#8 (List.replicate 256 0#8)).wf = false := by
  simp only [Instr.wf, fitsU8, List.length_replicate]; decide
theorem test_wf_reservedCommand : (Instr.reservedCommand 0x21#8).wf = false := by decide
theorem test_wf_frameFull : (Instr.frameFull 0#8 1#16 0#16 (List.replicate 256 0#8)).wf = false := by
  simp only [Instr.wf, fitsU8, List.length_replicate]; decide
theorem test_wf_frameStartOnly : (Instr.frameStartOnly 0#8 1#16 0#16 (List.replicate 256 0#8)).wf = false := by
  simp only [Instr.wf, fitsU8, List.length_replicate]; decide
theorem test_wf_frameDelimCrc : (Instr.frameDelimCrc 0#8 1#16 0#16 (List.replicate 256 0#8)).wf = false := by
  simp only [Instr.wf, fitsU8, List.length_replicate]; decide
theorem test_wf_frameNoCrc : (Instr.frameNoCrc 0#8 1#16 (List.replicate 256 0#8)).wf = false := by
  simp only [Instr.wf, fitsU8, List.length_replicate]; decide
theorem test_wf_application : (Instr.application 6#16).wf = false := by decide

/-! ### Decoding: each constructor's word, written out from 30_encoding.md (R72, R76 to R79) -/

theorem test_decode_open : decodeCommand [0x01#8, 0x00#8, 0x10#8] = .ok (.openSession .full 16#8) := by decide
theorem test_decode_setBufferSize : decodeCommand [0x02#8, 0x03#8, 0xE8#8] = .ok (.setBufferSize 1000#16) := by decide
theorem test_decode_getBufferSize : decodeCommand [0x03#8] = .ok .getBufferSize := by decide
theorem test_decode_checksum :
    decodeCommand [0x10#8, 0x00#8, 0x02#8, 0x12#8, 0x34#8] = .ok (.checksum [0x12#8, 0x34#8]) := by decide
theorem test_decode_encode :
    decodeCommand [0x11#8, 0x01#8, 0x01#8, 0x00#8, 0x01#8, 0x02#8, 0x12#8, 0x34#8]
      = .ok (.encode .startOnly 0x0100#16 0x01#8 [0x12#8, 0x34#8]) := by decide
theorem test_decode_decode :
    decodeCommand [0x12#8, 0x00#8, 0x00#8, 0x0A#8, 0xFE#8, 0x02#8, 0x01#8, 0x01#8, 0x00#8, 0x0E#8, 0xC9#8, 0xEF#8, 0x12#8, 0x34#8]
      = .ok (.decode .full [0xFE#8, 0x02#8, 0x01#8, 0x01#8, 0x00#8, 0x0E#8, 0xC9#8, 0xEF#8, 0x12#8, 0x34#8]) := by
  decide
theorem test_decode_poll : decodeCommand [0x20#8] = .ok .poll := by decide
theorem test_decode_send :
    decodeCommand [0x21#8, 0x01#8, 0x00#8, 0x01#8, 0x02#8, 0x12#8, 0x34#8]
      = .ok (.send 0x0100#16 0x01#8 [0x12#8, 0x34#8]) := by decide
theorem test_decode_reservedCommand : decodeCommand [0x30#8] = .ok (.reservedCommand 0x30#8) := by decide
/-- Vector E5, FULL. -/
theorem test_decode_frameFull :
    decodeFrame .full [0xFE#8, 0x03#8, 0x80#8, 0xAB#8, 0xCD#8, 0x34#8, 0x43#8, 0xEF#8, 0xFE#8, 0xEF#8, 0x00#8]
      = .ok (.frameFull 0x80#8 0xABCD#16 0x3443#16 [0xFE#8, 0xEF#8, 0x00#8]) := by decide
/-- Vector E4, START_ONLY. -/
theorem test_decode_frameStartOnly :
    decodeFrame .startOnly [0xFE#8, 0x02#8, 0x01#8, 0x01#8, 0x00#8, 0x0E#8, 0xC9#8, 0x12#8, 0x34#8]
      = .ok (.frameStartOnly 0x01#8 0x0100#16 0x0EC9#16 [0x12#8, 0x34#8]) := by decide
/-- Vector E3, DELIM_CRC. -/
theorem test_decode_frameDelimCrc :
    decodeFrame .delimCrc [0x02#8, 0x00#8, 0x00#8, 0x06#8, 0x0D#8, 0x2E#8, 0x00#8, 0x01#8]
      = .ok (.frameDelimCrc 0x00#8 0x0006#16 0x0D2E#16 [0x00#8, 0x01#8]) := by decide
/-- Vector E5, NO_CRC. -/
theorem test_decode_frameNoCrc :
    decodeFrame .noCrc [0x03#8, 0x80#8, 0xAB#8, 0xCD#8, 0xFE#8, 0xEF#8, 0x00#8]
      = .ok (.frameNoCrc 0x80#8 0xABCD#16 [0xFE#8, 0xEF#8, 0x00#8]) := by decide
theorem test_decode_sysNone : decode .dataId [0x00#8, 0x00#8] = .ok .sysNone := by decide
theorem test_decode_ping : decode .dataId [0x00#8, 0x01#8] = .ok .ping := by decide
theorem test_decode_pingReply : decode .dataId [0x00#8, 0x02#8] = .ok .pingReply := by decide
theorem test_decode_subscribe : decode .dataId [0x00#8, 0x03#8] = .ok .subscribe := by decide
theorem test_decode_unsubscribe : decode .dataId [0x00#8, 0x04#8] = .ok .unsubscribe := by decide
theorem test_decode_forceUnsubscribe : decode .dataId [0x00#8, 0x05#8] = .ok .forceUnsubscribe := by decide
theorem test_decode_acknowledge : decode .dataId [0x00#8, 0x06#8] = .ok .acknowledge := by decide
theorem test_decode_application : decode .dataId [0x00#8, 0x07#8] = .ok (.application 0x0007#16) := by decide
theorem test_decode_ackFlag : decode .flags [0x81#8] = .ok (.ackFlag 0x40#7) := by decide
theorem test_decode_no_ackFlag : decode .flags [0xFE#8] = .error .noAckRequest := by decide
/-- T12: mode byte bits 7:2 not zero. -/
theorem test_decode_modeBits : decodeCommand [0x01#8, 0x04#8, 0x10#8] = .error .modeBits := by decide
/-- T13: fewer bytes than declared. -/
theorem test_decode_short : decodeCommand [0x10#8, 0x00#8, 0x05#8, 0x01#8, 0x02#8] = .error .short := by decide
/-- A FULL frame with a wrong end byte (P5). -/
theorem test_decode_noEndByte :
    decodeFrame .full [0xFE#8, 0x00#8, 0x00#8, 0x00#8, 0x01#8, 0xFF#8, 0xFF#8, 0x00#8] = .error .noEndByte := by decide
/-- The table's word of SYS_NONE's neighbour PING, and of FRAME_FULL's header bytes. -/
theorem test_table_ping : decodeTableWord 16 1 = some .ping := by decide
theorem test_table_frameFull : decodeTableWord 64 0xEF000000000000FE = some (.frameFull 0#8 0#16 0#16 []) := by decide

/-! ### One step each -/

/-- T1. -/
theorem test_open :
    (after (stepOf State.reset [0x01#8, 0x00#8, 0x10#8])).map (fun t => (t.cfg, t.asm, t.resp))
      = some ({ opened := true, mode := .full, maxPayload := 16#8, bufCap := 64#16 }, .idle, some (.plain .ok)) := by
  decide
/-- T14: a second OPEN keeps RX and makes the assembler Idle. -/
theorem test_open_again :
    received (stepOf ((session .full 16#8 [0xFE#8, 0x02#8]).setAsm .syncing) [0x01#8, 0x01#8, 0x08#8])
      = some (some (.plain .ok), [0xFE#8, 0x02#8], .idle) := by decide
/-- T4: clamped to BUF_MAX. -/
theorem test_setBufferSize :
    (after (stepOf (session .full 16#8 []) [0x02#8, 0x03#8, 0xE8#8])).map (fun t => (t.cfg.bufCap, t.resp))
      = some (300#16, some (.plain .ok)) := by decide
/-- T9. -/
theorem test_setBufferSize_notOpen :
    (after (stepOf State.reset [0x02#8, 0x00#8, 0x05#8])).map (fun t => (t.cfg, t.resp))
      = some (Cfg.reset, some (.plain .notOpen)) := by decide
/-- T2. -/
theorem test_getBufferSize : shown (stepOf (session .full 16#8 []) [0x03#8]) = some (some (.bufferSize 64#16), []) := by
  decide
/-- T9. -/
theorem test_getBufferSize_notOpen : shown (stepOf State.reset [0x03#8]) = some (some (.plain .notOpen), []) := by
  decide
/-- §2.1, the command form; it needs no OPEN. -/
theorem test_checksum :
    shown (stepOf State.reset [0x10#8, 0x00#8, 0x09#8, 0x31#8, 0x32#8, 0x33#8, 0x34#8, 0x35#8, 0x36#8, 0x37#8, 0x38#8, 0x39#8])
      = some (some (.crc 0x29B1#16), []) := by decide
/-- §2.2: DE AD BE EF. -/
theorem test_checksum_value : checksum [0xDE#8, 0xAD#8, 0xBE#8, 0xEF#8] = 0x4097#16 := by decide
/-- §3, the command form of E1. -/
theorem test_encode :
    shown (stepOf State.reset [0x11#8, 0x00#8, 0x00#8, 0x01#8, 0x00#8, 0x00#8]) = some (some (.frame pingFrame), []) := by
  decide
/-- E4, DELIM_CRC. -/
theorem test_encode_delimCrc :
    encodeMessage .delimCrc 0x0100#16 0x01#8 [0x12#8, 0x34#8]
      = [0x02#8, 0x01#8, 0x01#8, 0x00#8, 0x0E#8, 0xC9#8, 0x12#8, 0x34#8] := by decide
/-- D2: one payload bit flipped. -/
theorem test_decodeMessage_corrupt :
    decodeMessage .full [0xFE#8, 0x02#8, 0x01#8, 0x01#8, 0x00#8, 0x0E#8, 0xC9#8, 0xEF#8, 0x13#8, 0x34#8]
      = (.corruptFrame, Message.absent) := by decide
/-- D8: NO_CRC, a trailing byte. -/
theorem test_decodeMessage_noCrc :
    shown (stepOf State.reset [0x12#8, 0x03#8, 0x00#8, 0x07#8, 0x02#8, 0x01#8, 0x01#8, 0x00#8, 0x12#8, 0x34#8, 0x56#8])
      = some (some (.decoded .message { dataId := 0x0100#16, flags := 0x01#8, size := 2#8, payload := [0x12#8, 0x34#8] }), []) := by
  decide
/-- A1: three bytes scanned off, the header still incomplete. -/
theorem test_poll_scan :
    received (stepOf (session .full 16#8 [0x00#8, 0x13#8, 0xEF#8, 0xFE#8, 0x00#8, 0x00#8, 0x00#8, 0x01#8]) [0x20#8])
      = some (some (.polled .noMessage Message.absent .none .none), [0xFE#8, 0x00#8, 0x00#8, 0x00#8, 0x01#8], .syncing) := by
  decide
/-- A10: the total is computed without wrap. -/
theorem test_poll_oversize :
    received (stepOf (session .full 255#8 [0xFE#8, 0xFA#8, 0x00#8, 0x00#8, 0x07#8, 0x83#8, 0x7A#8, 0xEF#8]) [0x20#8])
      = some (some (.polled .frameTooLarge Message.absent .none .none),
          [0xFA#8, 0x00#8, 0x00#8, 0x07#8, 0x83#8, 0x7A#8, 0xEF#8], .idle) := by decide
/-- T5. -/
theorem test_send :
    shown (stepOf (session .delimCrc 8#8 []) [0x21#8, 0x01#8, 0x00#8, 0x01#8, 0x02#8, 0x12#8, 0x34#8])
      = some (some (.plain .ok), [0x02#8, 0x01#8, 0x01#8, 0x00#8, 0x0E#8, 0xC9#8, 0x12#8, 0x34#8]) := by decide
/-- T6: a payload longer than maxPayload. -/
theorem test_send_tooLarge :
    shown (stepOf (session .full 1#8 []) [0x21#8, 0x00#8, 0x07#8, 0x00#8, 0x02#8, 0x01#8, 0x02#8])
      = some (some (.plain .frameTooLarge), []) := by decide
/-- T11. -/
theorem test_reservedCommand : shown (stepOf State.reset [0xFF#8]) = some (some (.plain .badCommand), []) := by
  decide
/-- S11, a FULL frame consumed by POLL. -/
theorem test_frameFull :
    received (stepOf (session .full 16#8 [0xFE#8, 0x01#8, 0x00#8, 0x02#8, 0x03#8, 0xB9#8, 0x15#8, 0xEF#8, 0x41#8]) [0x20#8])
      = some (some (.polled .message { dataId := 0x0203#16, flags := 0#8, size := 1#8, payload := [0x41#8] } .none .none),
          [], .idle) := by decide
/-- S5, a START_ONLY frame consumed by POLL: acknowledged. -/
theorem test_frameStartOnly :
    shown (stepOf (session .startOnly 8#8 [0xFE#8, 0x02#8, 0x01#8, 0x01#8, 0x00#8, 0x0E#8, 0xC9#8, 0x12#8, 0x34#8]) [0x20#8])
      = some (some (.polled .message { dataId := 0x0100#16, flags := 1#8, size := 2#8, payload := [0x12#8, 0x34#8] } .sent .none),
          [0xFE#8, 0x02#8, 0x00#8, 0x00#8, 0x06#8, 0x2E#8, 0x3E#8, 0x01#8, 0x00#8]) := by decide
/-- P6, second POLL: a wrong CRC in DELIM_CRC. -/
theorem test_frameDelimCrc :
    shown (exec (.frameDelimCrc 0x04#8 0x00BE#16 0x05AA#16 []) (session .delimCrc 4#8 []))
      = some (some (.polled .corruptFrame Message.absent .none .none), []) := by decide
/-- A7, the frame alone. -/
theorem test_frameNoCrc :
    shown (exec (.frameNoCrc 0x00#8 0x0100#16 [0xAA#8, 0xBB#8]) (session .noCrc 8#8 []))
      = some (some (.polled .message { dataId := 0x0100#16, flags := 0#8, size := 2#8, payload := [0xAA#8, 0xBB#8] } .none .none),
          []) := by decide
/-- A16: dataId 0 with flags bit 0 gets no acknowledge. -/
theorem test_sysNone :
    shown (stepOf (session .full 16#8 [0xFE#8, 0x01#8, 0x01#8, 0x00#8, 0x00#8, 0x70#8, 0xD9#8, 0xEF#8, 0x09#8]) [0x20#8])
      = some (some (.polled .noMessage Message.absent .none .none), []) := by decide
/-- S3. -/
theorem test_ping :
    shown (stepOf (session .noCrc 16#8 [0x00#8, 0x00#8, 0x00#8, 0x01#8]) [0x20#8])
      = some (some (.polled .noMessage Message.absent .none .sent), [0x01#8, 0x00#8, 0x00#8, 0x02#8, 0x00#8]) := by decide
/-- S8: the acknowledge fits, the Ping-reply does not. -/
theorem test_ping_txFull :
    shown (stepOf { session .full 16#8 [0xFE#8, 0x00#8, 0x01#8, 0x00#8, 0x01#8, 0xFF#8, 0xFF#8, 0xEF#8] with
        par := { rxCap := 64#16, txCap := 12#16, bufMax := 300#16 } } [0x20#8])
      = some (some (.polled .noMessage Message.absent .sent .txFull),
          [0xFE#8, 0x02#8, 0x00#8, 0x00#8, 0x06#8, 0x0D#8, 0x2E#8, 0xEF#8, 0x00#8, 0x01#8]) := by decide
/-- S4. -/
theorem test_pingReply :
    shown (stepOf (session .delimCrc 16#8 [0x01#8, 0x00#8, 0x00#8, 0x02#8, 0xE1#8, 0xF0#8, 0x00#8]) [0x20#8])
      = some (some (.polled .noMessage Message.absent .none .none), []) := by decide
/-- S9. -/
theorem test_subscribe :
    shown (stepOf (session .noCrc 16#8 [0x00#8, 0x00#8, 0x00#8, 0x03#8]) [0x20#8])
      = some (some (.polled .noMessage Message.absent .none .none), []) := by decide
/-- S10. -/
theorem test_unsubscribe :
    shown (stepOf (session .noCrc 16#8 [0x00#8, 0x00#8, 0x00#8, 0x04#8]) [0x20#8])
      = some (some (.polled .noMessage Message.absent .none .none), []) := by decide
/-- S6. -/
theorem test_forceUnsubscribe :
    shown (stepOf (session .noCrc 8#8 [0x01#8, 0x01#8, 0x00#8, 0x05#8, 0x07#8]) [0x20#8])
      = some (some (.polled .noMessage Message.absent .sent .none), [0x02#8, 0x00#8, 0x00#8, 0x06#8, 0x00#8, 0x05#8]) := by
  decide
/-- S7. -/
theorem test_acknowledge :
    shown (stepOf (session .full 16#8 [0xFE#8, 0x02#8, 0x01#8, 0x00#8, 0x06#8, 0x0D#8, 0x2E#8, 0xEF#8, 0x00#8, 0x01#8]) [0x20#8])
      = some (some (.polled .noMessage Message.absent .sent .none),
          [0xFE#8, 0x02#8, 0x00#8, 0x00#8, 0x06#8, 0x7D#8, 0xC9#8, 0xEF#8, 0x00#8, 0x06#8]) := by decide
/-- S12: flags returned whole, bit 7 asks for no acknowledge. -/
theorem test_application :
    shown (stepOf (session .full 16#8 [0xFE#8, 0x00#8, 0x80#8, 0x00#8, 0x07#8, 0xFF#8, 0xFF#8, 0xEF#8]) [0x20#8])
      = some (some (.polled .message { dataId := 0x0007#16, flags := 0x80#8, size := 0#8, payload := [] } .none .none), []) := by
  decide
/-- The Acknowledge of dataId 0x0100 in START_ONLY (A8), written by the instruction itself. -/
theorem test_ackFlag :
    (after (exec (.ackFlag 0x40#7) ((session .startOnly 8#8 []).setMsg { Message.absent with dataId := 0x0100#16 }))).map
        (fun t => (t.ack, t.tx))
      = some (.sent, [0xFE#8, 0x02#8, 0x00#8, 0x00#8, 0x06#8, 0x2E#8, 0x3E#8, 0x01#8, 0x00#8]) := by decide
/-- A17: the byte that arrives at a full RX is lost. -/
theorem test_rxArrive_full :
    (after (step { session .full 16#8 [0xFE#8] with
        par := { rxCap := 1#16, txCap := 64#16, bufMax := 300#16 }, inputs := [.rxArrive 0x01#8] })).map (fun t => t.rx)
      = some [0xFE#8] := by decide

/-! ### withFetchWord: the very next step runs the instruction -/

theorem test_fetch_getBufferSize :
    shown (step (State.reset.withFetchWord 8 0x03)) = some (some (.plain .notOpen), []) := by decide
theorem test_fetch_ping :
    shown (step (State.reset.withFetchWord 16 1))
      = some (some (.polled .noMessage Message.absent .none .sent), [0xFE#8, 0x01#8, 0x00#8, 0x00#8, 0x02#8, 0xE1#8, 0xF0#8, 0xEF#8, 0x00#8]) := by
  decide

/-! ### Witnesses: concrete inputs that meet all hypotheses of a statement together, one for each clause, at a boundary -/

/-- The longest FULL frame's instruction, the least application dataId, a code next to the command codes. -/
theorem witness_DecodeOfEncodeIsTheInstruction :
    (Instr.frameFull 0x80#8 0xFFFF#16 0#16 (List.replicate 255 0#8)).wf = true ∧ (Instr.application 7#16).wf = true
      ∧ (Instr.reservedCommand 0x22#8).wf = true := by
  refine ⟨?_, by decide, by decide⟩
  simp only [Instr.wf, fitsU8, List.length_replicate]; decide

theorem witness_EncodeOfDecodeIsTheBytes :
    decode .command [0x21#8, 0x00#8, 0x07#8, 0x00#8, 0x00#8] = .ok (.send 7#16 0#8 [])
      ∧ decode (.frame .noCrc) [0x00#8, 0x00#8, 0x00#8, 0x01#8] = .ok (.frameNoCrc 0#8 1#16 []) := by decide

theorem witness_StepRunsTheDecodedCommand :
    (State.reset.setInputs [.command [0x20#8], .txDrain]).inputs = .command [0x20#8] :: [.txDrain]
      ∧ decodeCommand [0x20#8] = .ok .poll := by decide

/-- One for each form R81 calls illegal, each one byte or one bit away from a legal command. -/
theorem witness_IllegalCommandAnswersBadCommand :
    Illegal [0x04#8] ∧ Illegal [0x01#8, 0x04#8, 0x10#8] ∧ Illegal [0x10#8, 0x00#8, 0x01#8]
      ∧ Illegal [0x11#8, 0x00#8, 0x00#8, 0x01#8, 0x00#8, 0x01#8] ∧ Illegal [0x12#8, 0x00#8, 0x00#8, 0x01#8]
      ∧ Illegal [0x21#8, 0x00#8, 0x07#8, 0x00#8, 0x01#8]
      ∧ (State.reset.setInputs [.command [0x04#8]]).inputs = .command [0x04#8] :: []
      ∧ [0x04#8].head? = some 0x04#8 ∧ 0x04#8 ∉ [0x10#8, 0x11#8, 0x12#8] :=
  ⟨.reserved _ _ (by decide), .modeBits _ _ _ (by decide) (by decide), .shortChecksum _ _ _ (by decide),
    .shortEncode _ _ _ _ _ _ (by decide), .shortDecode _ _ _ _ (by decide), .shortSend _ _ _ _ _ (by decide), rfl, rfl,
    by decide⟩

/-- The longest CHECKSUM and DECODE operands. -/
theorem witness_ChecksumCommand : fitsU16 (List.replicate 65535 0#8) ∧ fitsU16 ([] : List Byte) := by
  simp only [fitsU16, List.length_replicate]; decide

/-- Bit 7 of the last byte of the longest payload. -/
theorem witness_SingleBitFlipIsDetected :
    7 < 8 ∧ hasCrc .delimCrc = true ∧ fitsU8 (List.replicate 254 0#8 ++ 0x00#8 :: []) := by
  refine ⟨by decide, by decide, ?_⟩
  simp only [fitsU8, List.length_append, List.length_replicate]; decide

/-- The longest and the empty payload: EncodeCommand, EncodedFrameLength, DecodeMessageOfEncodeMessage, SendCommand's
encoding and FramesComplete's, FrameBufferWrites' and BeforeOpenAnswersNotOpen's bound. -/
theorem witness_fitsU8 : fitsU8 (List.replicate 255 0#8) ∧ fitsU8 ([] : List Byte) := by
  simp only [fitsU8, List.length_replicate]; decide

/-- Each clause of DECODE: one byte short of a header, one short of a frame, a wrong CRC, a right one, no CRC. -/
theorem witness_DecodeCommand :
    [0x00#8, 0x00#8, 0x00#8].length < hl .noCrc
      ∧ [0x01#8, 0x00#8, 0x00#8, 0x01#8].length < hl .noCrc + (byteAt [0x01#8, 0x00#8, 0x00#8, 0x01#8] (offLen .noCrc)).toNat
      ∧ hl .full + (byteAt pingFrame (offLen .full)).toNat ≤ pingFrame.length
      ∧ checksum ((pingFrame.drop (hl .full)).take (byteAt pingFrame (offLen .full)).toNat)
          = be16 (byteAt pingFrame (offCrc .full)) (byteAt pingFrame (offCrc .full + 1))
      ∧ hasCrc .delimCrc = true
      ∧ checksum [] ≠ be16 (byteAt [0x00#8, 0x00#8, 0x00#8, 0x01#8, 0xFF#8, 0xFE#8] 4)
          (byteAt [0x00#8, 0x00#8, 0x00#8, 0x01#8, 0xFF#8, 0xFE#8] 5) := by decide

theorem witness_OpenCommand :
    (0x04#8 : Byte).extractLsb' 2 6 ≠ 0#6
      ∧ (State.reset.setInputs [.command [0x01#8, 0x04#8, 0x10#8]]).inputs = .command [0x01#8, 0x04#8, 0x10#8] :: [] := by
  decide

/-- SetBufferSizeCommand, GetBufferSizeCommand: each clause, with an operand one above BUF_MAX. -/
theorem witness_opened :
    State.reset.cfg.opened = false ∧ (session .noCrc 0#8 []).cfg.opened = true
      ∧ (session .noCrc 0#8 []).par.bufMax.toNat < (301#16 : Half).toNat := by decide

/-- Each clause of SEND: a payload one byte longer than maxPayload, a frame one byte longer than bufCap, a frame one byte
longer than the room in TX, and one that just fits. -/
theorem witness_SendCommand :
    [0x01#8].length > (session .full 0#8 []).cfg.maxPayload.toNat
      ∧ ([] : List Byte).length + hl .full > ((session .full 0#8 []).setCfg { opened := true, mode := .full, maxPayload := 0#8, bufCap := 7#16 }).cfg.bufCap.toNat
      ∧ Admitted (session .full 0#8 []) 0
      ∧ (encodeMessage .full 7#16 0#8 []).length
          > (session .full 0#8 []).par.txCap.toNat - ((session .full 0#8 []).setTx (List.replicate 57 0#8)).tx.length
      ∧ (encodeMessage .full 7#16 0#8 []).length
          ≤ (session .full 0#8 []).par.txCap.toNat - ((session .full 0#8 []).setTx (List.replicate 56 0#8)).tx.length := by
  decide

theorem witness_BeforeOpenAnswersNotOpen :
    State.reset.cfg.opened = false ∧ (State.reset.setInputs [pollInput]).inputs = pollInput :: []
      ∧ (State.reset.setInputs [.command [0x03#8]]).inputs = .command [0x03#8] :: []
      ∧ (State.reset.setInputs [.command [0x02#8, 0x00#8, 0x05#8]]).inputs = .command [0x02#8, 0x00#8, 0x05#8] :: []
      ∧ (State.reset.setInputs [.command (encode (.send 7#16 0#8 []))]).inputs = .command (encode (.send 7#16 0#8 [])) :: [] := by
  decide

theorem witness_PollWithoutAStartByte :
    (session .noCrc 8#8 [0x02#8, 0x00#8, 0x01#8]).cfg.opened = true ∧ hasStart .noCrc = false
      ∧ (session .noCrc 8#8 [0x02#8, 0x00#8, 0x01#8]).rx.length < hl .noCrc
      ∧ (session .noCrc 8#8 [0x02#8, 0x00#8, 0x01#8]).asm = .idle
      ∧ (after (exec .poll (session .noCrc 8#8 [0x02#8, 0x00#8, 0x01#8]))).isSome = true := by decide

theorem witness_PollEntry :
    State.reset.cfg.opened = false
      ∧ ((session .full 16#8 []).cfg.opened = true ∧ hasStart .full = true ∧ (session .full 16#8 []).asm = .idle
          ∧ (session .full 16#8 []).rx = [])
      ∧ ((session .full 16#8 [0xFE#8]).setAsm .syncing).asm = .syncing ∧ SyncInv ((session .full 16#8 [0xFE#8]).setAsm .syncing) := by
  decide

/-- Both clauses of the scan: one byte that is no start byte, and none before one. -/
theorem witness_PollScan :
    (session .startOnly 16#8 [0xFF#8]).cfg.opened = true ∧ hasStart .startOnly = true
      ∧ (session .startOnly 16#8 [0xFF#8]).asm = .idle
      ∧ (∀ b ∈ [0xFF#8], b ≠ startByte) ∧ (session .startOnly 16#8 [0xFF#8]).rx = [0xFF#8]
      ∧ (∀ b ∈ ([] : List Byte), b ≠ startByte)
      ∧ (session .startOnly 16#8 [0xFE#8, 0xFE#8]).rx = [] ++ startByte :: [0xFE#8] := by decide

/-- One byte short of a header, in both kinds of Mode. -/
theorem witness_PollAwaitsHeader :
    Aligned (session .full 16#8 (pingFrame.take 7)) ∧ (session .full 16#8 (pingFrame.take 7)).rx.length < hl .full
      ∧ Aligned (session .delimCrc 16#8 []) ∧ (session .delimCrc 16#8 []).rx.length < hl .delimCrc := by decide

/-- P5's first header. -/
theorem witness_PollMisaligned :
    let s := session .full 16#8 [0xFE#8, 0x00#8, 0x00#8, 0x00#8, 0x01#8, 0xFF#8, 0xFF#8, 0x00#8]
    Aligned s ∧ hasEnd s.cfg.mode = true ∧ hl s.cfg.mode ≤ s.rx.length ∧ byteAt s.rx (hl s.cfg.mode - 1) ≠ endByte := by
  decide

/-- Both ways a frame is oversize, each by one byte. -/
theorem witness_PollOversize :
    let s := session .full 255#8 [0xFE#8, 57#8, 0x00#8, 0x00#8, 0x07#8, 0xFF#8, 0xFF#8, 0xEF#8]
    let t := session .noCrc 0#8 [0x01#8, 0x00#8, 0x00#8, 0x07#8]
    (Aligned s ∧ HeaderOk s ∧ headLen s + hl s.cfg.mode > s.cfg.bufCap.toNat ∧ ¬ headLen s > s.cfg.maxPayload.toNat)
      ∧ Aligned t ∧ HeaderOk t ∧ ¬ headLen t + hl t.cfg.mode > t.cfg.bufCap.toNat ∧ headLen t > t.cfg.maxPayload.toNat := by
  decide

/-- A frame that just passes step 6, with its last byte missing. -/
theorem witness_PollAwaitsFrame :
    let s := session .noCrc 1#8 [0x01#8, 0x00#8, 0x00#8, 0x07#8]
    Aligned s ∧ HeaderOk s ∧ Admitted s (headLen s) ∧ s.rx.length < headLen s + hl s.cfg.mode := by decide

theorem witness_PollConsumesTheFrame :
    let s := session .full 0#8 (pingFrame ++ [0x00#8])
    Aligned s ∧ HeaderOk s ∧ Admitted s (headLen s) ∧ headLen s + hl s.cfg.mode ≤ s.rx.length ∧ s.fb.wf
      ∧ s.cfg.bufCap.toNat ≤ s.par.bufMax.toNat := by decide

theorem witness_PollRunsTheFrameInstruction :
    let s := session .full 0#8 ([0x13#8] ++ pingFrame ++ [0x00#8])
    s.cfg.opened = true ∧ Junk s [0x13#8] ∧ Admitted s ([] : List Byte).length
      ∧ s.rx = [0x13#8] ++ encode (frameInstr s.cfg.mode 0#8 1#16 0xFFFF#16 []) ++ [0x00#8] := by decide

/-- The least FB that holds each Mode's frame of no payload. -/
theorem witness_FramesComplete :
    (∀ n : Half, n ∈ [8#16, 7#16, 6#16, 4#16] →
      { State.reset with par := { rxCap := 1#16, txCap := 1#16, bufMax := n } }.fb.wf)
    ∧ 8 + ([] : List Byte).length ≤ (8#16 : Half).toNat ∧ 7 + ([] : List Byte).length ≤ (7#16 : Half).toNat
    ∧ 6 + ([] : List Byte).length ≤ (6#16 : Half).toNat ∧ 4 + ([] : List Byte).length ≤ (4#16 : Half).toNat
    ∧ fitsU8 ([] : List Byte) := by
  refine ⟨fun _ _ => ⟨.nil, fun c hc => absurd hc (List.not_mem_nil)⟩, by decide, by decide, by decide, by decide, by decide⟩

theorem witness_FrameBufferWrites :
    (after (exec (frameInstr .noCrc 0#8 7#16 0#16 [0xAA#8]) (session .noCrc 1#8 []))).isSome = true
      ∧ (session .noCrc 1#8 []).fb.wf ∧ 0 < (encode (frameInstr .noCrc 0#8 7#16 0#16 [0xAA#8])).length
      ∧ (encode (frameInstr .noCrc 0#8 7#16 0#16 [0xAA#8])).length ≤ 5
      ∧ Instr.ping.format = .dataId ∧ (after (exec .ping State.reset)).isSome = true := by decide

/-- StepKeepsTheSyncInvariant's and SyncingPollIsIdlePoll's hypotheses. -/
theorem witness_SyncingPollIsIdlePoll :
    let s := ((session .full 16#8 pingFrame).setAsm .syncing).setInputs [pollInput]
    SyncInv s ∧ s.asm = .syncing ∧ (after (step s)).isSome = true := by decide

/-- A8's arrivals with one byte before them: two groups and the last byte. -/
theorem witness_PartialDelivery :
    let s := session .startOnly 8#8 []
    let groups := [[0x13#8, 0xFE#8, 0x02#8], [0x01#8, 0x01#8, 0x00#8, 0x0E#8, 0xC9#8, 0x12#8]]
    let stream := [0x13#8] ++ encodeMessage s.cfg.mode 0x0100#16 0x01#8 [0x12#8, 0x34#8]
    s.cfg.opened = true ∧ s.asm = .idle ∧ s.rx = [] ∧ s.fb.wf ∧ Junk s [0x13#8] ∧ Admitted s 2
      ∧ s.cfg.bufCap.toNat ≤ s.par.bufMax.toNat ∧ stream.length ≤ s.par.rxCap.toNat
      ∧ groups.flatten ++ [0x34#8] = stream ∧ [0x34#8] ≠ ([] : List Byte) ∧ 0 < 2 ∧ 2 ≤ groups.length := by decide

theorem witness_ResyncDiscardsExactlyTheJunk :
    let s := session .full 0#8 ([0x00#8, 0xEF#8] ++ encodeMessage .full 1#16 0#8 [] ++ [0x55#8])
    s.cfg.opened = true ∧ hasStart s.cfg.mode = true ∧ s.asm = .idle ∧ s.fb.wf
      ∧ (∀ b ∈ [0x00#8, 0xEF#8], b ≠ startByte) ∧ Admitted s ([] : List Byte).length
      ∧ s.cfg.bufCap.toNat ≤ s.par.bufMax.toNat
      ∧ s.rx = [0x00#8, 0xEF#8] ++ encodeMessage s.cfg.mode 1#16 0#8 [] ++ [0x55#8] := by decide

/-- A12: an oversize frame with one start byte in its payload, then a good one. -/
theorem witness_OversizeFrameThenRecovery :
    let g := [0xFE#8, 0x06#8, 0x00#8, 0x00#8, 0x10#8, 0xC2#8, 0x3C#8, 0xEF#8, 0xFE#8, 0x00#8, 0x11#8, 0x22#8, 0x33#8, 0x44#8]
    let s := session .full 4#8 (g ++ encodeMessage .full 7#16 0#8 [0xAA#8] ++ [])
    s.cfg.opened = true ∧ s.cfg.mode = .full ∧ s.asm = .idle ∧ s.fb.wf ∧ Admitted s 1
      ∧ s.cfg.bufCap.toNat ≤ s.par.bufMax.toNat
      ∧ g.length = (byteAt g 1).toNat + 8 ∧ byteAt g 0 = startByte ∧ byteAt g 7 = endByte
      ∧ ¬ Admitted s (byteAt g 1).toNat
      ∧ (∀ k, k < 14 → byteAt g k = startByte → 1 ≤ k →
          byteAt (g ++ encodeMessage .full 7#16 0#8 [0xAA#8]) (k + 7) ≠ endByte)
      ∧ s.rx = g ++ encodeMessage .full 7#16 0#8 [0xAA#8] ++ [] ∧ 1 ≤ g.tail.count startByte := by decide

theorem witness_PollIsBounded : (after (exec .poll (session .full 16#8 pingFrame))).isSome = true := by decide

/-- A18: a frame of 13 bytes in an RX of 12. -/
theorem witness_FrameBeyondTheTransportStalls :
    let s := { session .full 16#8 [0xFE#8, 0x05#8, 0x00#8, 0x00#8, 0x07#8, 0x93#8, 0x04#8, 0xEF#8, 0x01#8, 0x02#8, 0x03#8, 0x04#8] with
      par := { rxCap := 12#16, txCap := 64#16, bufMax := 300#16 } }
    Stalled s ∧ (s.setInputs [pollInput]).inputs = pollInput :: []
      ∧ (s.setInputs [.rxArrive 0x05#8]).inputs = .rxArrive 0x05#8 :: [] := by decide

theorem witness_SilentSystemMessagesComplete :
    Instr.acknowledge ∈ [Instr.pingReply, .subscribe, .unsubscribe, .forceUnsubscribe, .acknowledge] := by decide

theorem witness_DispatchInFull : (0x0001#16 : Half) ≠ 0x0000#16 := by decide

theorem witness_DispatchRunsTheDecodedActions :
    decodeFlags 0x01#8 = .ok (.ackFlag 0#7) ∧ decodeFlags 0xFE#8 = .error .noAckRequest := by decide

/-- PingIsTransparent, and each clause of AckRequestIsAnswered at its boundary dataId. -/
theorem witness_AckRequestIsAnswered :
    (∀ i ∈ ([0x0000#16, 0x0001#16, 0x0002#16, 0x0006#16, 0x0007#16] : List Half),
      let s := session .full 0#8 (encodeMessage .full i 0x01#8 [] ++ [])
      s.cfg.opened = true ∧ s.fb.wf ∧ Admitted s ([] : List Byte).length ∧ s.cfg.bufCap.toNat ≤ s.par.bufMax.toNat
        ∧ (0x01#8 : Byte).getLsbD 0 = true ∧ s.rx = encodeMessage s.cfg.mode i 0x01#8 [] ++ [])
    ∧ (0x0007#16 : Half).toNat ≥ 7 ∧ 2 ≤ (0x0002#16 : Half).toNat ∧ (0x0006#16 : Half).toNat ≤ 6 := by
  refine ⟨fun i _ => ⟨rfl, ⟨.nil, fun c hc => absurd hc List.not_mem_nil⟩, ⟨?_, Nat.le_refl 0⟩, ?_, by decide, rfl⟩, by decide,
    by decide, by decide⟩
  · show 0 + 8 ≤ (64#16).toNat
    decide
  · show (64#16).toNat ≤ (300#16).toNat
    decide

theorem witness_ReceiveLineStep :
    let s := (session .full 16#8 [0xFE#8]).setInputs [.rxArrive 0x00#8]
    s.inputs = .rxArrive 0x00#8 :: [] ∧ s.rx.length < s.par.rxCap.toNat
      ∧ (s.setRx (List.replicate 64 0x00#8)).par.rxCap.toNat ≤ (s.setRx (List.replicate 64 0x00#8)).rx.length := by decide

theorem witness_TransmitLineStep :
    let s := State.reset.setInputs [.txDrain]
    (s.setTx [0xFE#8]).inputs = .txDrain :: [] ∧ (s.setTx [0xFE#8]).tx = 0xFE#8 :: [] := by decide

theorem witness_ForeignReaderIsRefused : (State.reset.setInputs [.foreignRead]).inputs = .foreignRead :: [] := by decide

theorem witness_PowerOnReset : ((session .full 16#8 [0xFE#8]).setInputs [.powerOn]).inputs = .powerOn :: [] := by decide

/-- StepKeepsTheInvariant, NothingIsFatal, RegistersAreLegal: a Syncing session with a frame pending and a POLL to come. -/
theorem witness_StepKeepsTheInvariant :
    Machine.Inv syncingPing ∧ (after (step syncingPing)).isSome = true ∧ ∀ rest, syncingPing.inputs ≠ .foreignRead :: rest := by
  refine ⟨⟨by decide, by decide, by decide, by decide, by decide, by decide, by decide⟩, by decide, fun rest h => ?_⟩
  have e : syncingPing.inputs = [pollInput] := rfl
  rw [e] at h
  simp [pollInput] at h

/-- Full queues are legal. -/
theorem witness_ResetMeetsTheInvariant :
    Params.wf { rxCap := 1#16, txCap := 1#16, bufMax := 0#16 } ∧ [0xFE#8].length ≤ (1#16 : Half).toNat := by decide

/-- Two states that differ in FB, the locals and the last response. -/
theorem witness_ScratchIsNotObservable :
    let s := (session .full 16#8 pingFrame).setInputs [pollInput]
    let t := (((s.setFb [(3, 0x55#8)]).setAck .sent).setMsg { Message.absent with dataId := 7#16 }).setResp (some (.plain .ok))
    s.fb.wf ∧ t.fb.wf ∧ SameButScratch s t ∧ s ≠ t := by decide

/-- RegisterWriters: OPEN changes the Mode, SET_BUFFER_SIZE the capacity, POLL makes the assembler Syncing, and OPEN and
power-on make it Idle again. -/
theorem witness_RegisterWriters :
    (after (stepOf (session .full 16#8 []) [0x01#8, 0x01#8, 0x08#8])).any (fun t => t.cfg.mode != .full) = true
      ∧ (after (stepOf (session .full 16#8 []) [0x02#8, 0x00#8, 0x0C#8])).any (fun t => t.cfg.bufCap != 64#16) = true
      ∧ (session .full 16#8 [0xFE#8]).asm = .idle
      ∧ (after (stepOf (session .full 16#8 [0xFE#8]) [0x20#8])).any (fun t => t.asm == .syncing) = true
      ∧ syncingPing.asm = .syncing
      ∧ (after (stepOf syncingPing [0x01#8, 0x00#8, 0x10#8])).any (fun t => t.asm == .idle) = true
      ∧ (after (step (syncingPing.setInputs [.powerOn]))).any (fun t => t.asm == .idle) = true := by decide

/-- QueuesAreFifo: a step of each kind goes on. -/
theorem witness_QueuesAreFifo :
    (after (step ((session .full 16#8 pingFrame).setInputs [pollInput]))).isSome = true
      ∧ (after (step (State.reset.setInputs [.txDrain]))).isSome = true
      ∧ (after (step (State.reset.setInputs [.rxArrive 0xFE#8]))).isSome = true := by decide

/-- ResponsesAreUniform: a POLL that reports a message, one that reports none, and a DECODE. -/
theorem witness_ResponsesAreUniform :
    (after (stepOf (session .noCrc 1#8 [0x01#8, 0x00#8, 0x00#8, 0x07#8, 0xAA#8]) [0x20#8])).map (fun t => t.resp)
        = some (some (.polled .message { dataId := 7#16, flags := 0#8, size := 1#8, payload := [0xAA#8] } .none .none))
      ∧ (after (stepOf (session .noCrc 1#8 []) [0x20#8])).map (fun t => t.resp)
        = some (some (.polled .noMessage Message.absent .none .none))
      ∧ (after (stepOf State.reset [0x12#8, 0x03#8, 0x00#8, 0x00#8])).map (fun t => t.resp)
        = some (some (.decoded .corruptFrame Message.absent)) := by decide

/-- LineAgentLines: RX with room for one byte of two, and one drain. -/
theorem witness_LineAgentLines :
    (State.reset.setRx (List.replicate 63 0x00#8)).rx.length ≤ State.reset.par.rxCap.toNat
      ∧ [0x01#8, 0x02#8] ≠ ([] : List Byte) ∧ 0 < 1 ∧ 1 ≤ (State.reset.setTx [0xFE#8]).tx.length := by decide

/-- P7's pair of engines. -/
theorem witness_SentMessageIsReceived :
    let a := session .full 16#8 []
    a.cfg.opened = true ∧ Admitted a 2 ∧ a.tx = [] ∧ hl a.cfg.mode + 2 ≤ a.par.txCap.toNat ∧ a.asm = .idle ∧ a.rx = []
      ∧ a.fb.wf ∧ a.cfg.bufCap.toNat ≤ a.par.bufMax.toNat ∧ hl a.cfg.mode + 2 ≤ a.par.rxCap.toNat
      ∧ 7 ≤ (0x0100#16 : Half).toNat := by decide

end Sys2Proof.Tests
end

section
/-!
The power-on reset: what it leaves in each register and queue (R37, R230), and the step that takes it.
-/

namespace Sys2Proof.Machine

@[simp] theorem powerOn_cfg (s : State) : (powerOn s).cfg = Cfg.reset := rfl
@[simp] theorem powerOn_asm (s : State) : (powerOn s).asm = .idle := rfl
@[simp] theorem powerOn_rx (s : State) : (powerOn s).rx = s.rx := rfl
@[simp] theorem powerOn_tx (s : State) : (powerOn s).tx = s.tx := rfl
@[simp] theorem powerOn_par (s : State) : (powerOn s).par = s.par := rfl
@[simp] theorem powerOn_inputs (s : State) : (powerOn s).inputs = s.inputs := rfl

@[simp] theorem powerUp_cfg (p : Params) (rx0 tx0 : List Byte) : (State.powerUp p rx0 tx0).cfg = Cfg.reset := rfl
@[simp] theorem powerUp_asm (p : Params) (rx0 tx0 : List Byte) : (State.powerUp p rx0 tx0).asm = .idle := rfl

/-- A pending power-on input always goes on, with the reset of the state it was taken in. -/
theorem step_powerOn {s : State} {rest : List Input} (hi : s.inputs = .powerOn :: rest) :
    step s = .next (powerOn ((s.setInputs rest).setResp none)) :=
  step_input hi

end Sys2Proof.Machine

namespace Sys2Proof.Proofs

open Sys2Proof.Machine

/-- Settles O48: the step is `step_powerOn`, and the registers, queues and parameters of its result are read off by the
equations of `powerOn` and of the setters; the reset state is a `powerUp`. -/
theorem powerOnReset : Obligations.PowerOnReset := by
  refine ⟨fun s rest hi => ⟨_, step_powerOn hi, powerOn_cfg _, powerOn_asm _, ?rx, ?tx, ?par, ?inputs⟩,
    powerUp_cfg _ _ _, powerUp_asm _ _ _⟩
  case rx => simp
  case tx => simp
  case par => simp
  case inputs => simp

end Sys2Proof.Proofs
end

section
/-!
The line agents: what an arriving byte does to RX (R59), what a drain does to TX (R60), and the steps that take them.
-/

namespace Sys2Proof.Machine

open Sys2Proof.Claim

@[simp] theorem taken_rx (s : State) (rest : List Input) : (taken s rest).rx = s.rx := rfl
@[simp] theorem taken_tx (s : State) (rest : List Input) : (taken s rest).tx = s.tx := rfl
@[simp] theorem taken_par (s : State) (rest : List Input) : (taken s rest).par = s.par := rfl

/-- RX has room: the byte goes to its tail. -/
theorem rxArrive_of_room {s : State} {b : Byte} (h : s.rx.length < s.par.rxCap.toNat) :
    rxArrive b s = s.setRx (s.rx ++ [b]) :=
  if_pos h

/-- RX is full: the byte is lost. -/
theorem rxArrive_of_full {s : State} {b : Byte} (h : s.par.rxCap.toNat ≤ s.rx.length) : rxArrive b s = s :=
  if_neg (Nat.not_lt.mpr h)

/-- TX holds a byte: its head goes. -/
theorem txDrain_of_cons {s : State} {b : Byte} {bs : List Byte} (h : s.tx = b :: bs) : txDrain s = s.setTx bs := by
  rw [txDrain, h, List.tail_cons]

/-- A pending arrival always goes on, with the byte delivered to the state it was taken in. -/
theorem step_rxArrive {s : State} {b : Byte} {rest : List Input} (hi : s.inputs = .rxArrive b :: rest) :
    step s = .next (rxArrive b (taken s rest)) :=
  step_input hi

/-- A pending drain always goes on, with a byte taken from the state it was taken in. -/
theorem step_txDrain {s : State} {rest : List Input} (hi : s.inputs = .txDrain :: rest) :
    step s = .next (txDrain (taken s rest)) :=
  step_input hi

end Sys2Proof.Machine

namespace Sys2Proof.Proofs

open Sys2Proof.Machine

/-- Settles O45: the step is `step_rxArrive`, and taking the input changes neither RX nor its capacity, so the byte is
delivered by `rxArrive_of_room` or lost by `rxArrive_of_full`. -/
theorem receiveLineStep : Obligations.ReceiveLineStep := by
  intro s b rest hi
  rw [step_rxArrive hi]
  refine ⟨fun room => ?_, fun full => ?_⟩
  · rw [rxArrive_of_room (by simpa using room), taken_rx]
  · rw [rxArrive_of_full (by simpa using full)]

/-- Settles O46: the step is `step_txDrain`, and taking the input leaves TX, so its head goes by `txDrain_of_cons`. -/
theorem transmitLineStep : Obligations.TransmitLineStep := by
  intro s rest b bs hi htx
  rw [step_txDrain hi, txDrain_of_cons (by rw [taken_tx, htx])]

end Sys2Proof.Proofs
end

section
/-!
The encoded frame: its size, payload and length byte (R73), read off the laws of the frame's bytes.
-/

namespace Sys2Proof.Machine

/-- An encoded message has `hl` header bytes and the payload (R73). -/
theorem encodeMessage_length (m : Mode) (i : Half) (f : Byte) (p : List Byte) :
    (encodeMessage m i f p).length = hl m + p.length :=
  frameBytes_length m f i (checksum p) p

/-- What stands after the header is the payload (R73). -/
theorem encodeMessage_drop_hl (m : Mode) (i : Half) (f : Byte) (p : List Byte) :
    (encodeMessage m i f p).drop (hl m) = p := by
  simpa only [encodeMessage, List.append_nil] using frameBytes_drop_hl m f i (checksum p) p []

/-- The length byte stands at `offLen` (R72, R110). -/
theorem byteAt_encodeMessage_offLen (m : Mode) (i : Half) (f : Byte) (p : List Byte) :
    byteAt (encodeMessage m i f p) (offLen m) = len8 p := by
  obtain ⟨hlen, -⟩ := frameBytes_fields m f i (checksum p) p []
  simpa only [encodeMessage, List.append_nil] using hlen

end Sys2Proof.Machine

namespace Sys2Proof.Proofs

open Sys2Proof.Machine

/-- Settles O11: size, payload and length byte are the three laws of `encodeMessage`; the bounds 4 and 263 come from the
header's 4 to 8 bytes and the payload's 0 to 255. -/
theorem encodedFrameLength : Obligations.EncodedFrameLength := by
  intro m i f p hp
  have hmin := hl_pos m
  have hmax := hl_le m
  rw [byteAt_encodeMessage_offLen, len8_toNat hp, encodeMessage_length]
  exact ⟨rfl, encodeMessage_drop_hl m i f p, rfl, by omega, by omega⟩

end Sys2Proof.Proofs
end

section
/-!
Commands that R81 calls illegal: what the decoder answers for each form, and that the step then answers BAD_COMMAND with no
other effect.
-/

namespace Sys2Proof.Machine

open Sys2Proof.Claim

/-- Fewer bytes than declared (R81). -/
theorem takeExactly_short {n : Nat} {bs : List Byte} (h : bs.length < n) : takeExactly n bs = .error .short :=
  if_pos h

/-- A mode byte with bits 7:2 not zero names no Mode (R80, R81). -/
theorem modeOfByte_eq_none {b : Byte} (h : b.extractLsb' 2 6 ≠ 0#6) : modeOfByte b = none :=
  if_neg h

/-! ### Each operand decoder on an illegal mode byte, whatever follows it -/

theorem decodeOpen_error_of_mode {mm : Byte} (h : modeOfByte mm = none) (ops : List Byte) :
    ∃ e, decodeOpen (mm :: ops) = .error e := by
  match ops with
  | [] => exact ⟨.short, rfl⟩
  | [_] => exact ⟨.modeBits, by simp only [decodeOpen, h]⟩
  | _ :: _ :: _ => exact ⟨.surplus, rfl⟩

theorem decodeEncode_error_of_mode {mm : Byte} (h : modeOfByte mm = none) (ops : List Byte) :
    ∃ e, decodeEncode (mm :: ops) = .error e := by
  match ops with
  | [] | [_] | [_, _] | [_, _, _] => exact ⟨.short, rfl⟩
  | _ :: _ :: _ :: _ :: _ => exact ⟨.modeBits, by simp only [decodeEncode, h]⟩

theorem decodeDecode_error_of_mode {mm : Byte} (h : modeOfByte mm = none) (ops : List Byte) :
    ∃ e, decodeDecode (mm :: ops) = .error e := by
  match ops with
  | [] | [_] => exact ⟨.short, rfl⟩
  | _ :: _ :: _ => exact ⟨.modeBits, by simp only [decodeDecode, h]⟩

/-! ### Each operand decoder on fewer bytes than its length operand declares -/

theorem decodeChecksum_short {l1 l0 : Byte} {d : List Byte} (h : d.length < (be16 l1 l0).toNat) :
    decodeChecksum (l1 :: l0 :: d) = .error .short := by
  rw [decodeChecksum, takeExactly_short h]; rfl

theorem decodeSend_short {i1 i0 ff ll : Byte} {p : List Byte} (h : p.length < ll.toNat) :
    decodeSend (i1 :: i0 :: ff :: ll :: p) = .error .short := by
  rw [decodeSend, takeExactly_short h]; rfl

/-- The error is the mode byte's when that is illegal too. -/
theorem decodeEncode_error_of_short (mm i1 i0 ff : Byte) {ll : Byte} {p : List Byte} (h : p.length < ll.toNat) :
    ∃ e, decodeEncode (mm :: i1 :: i0 :: ff :: ll :: p) = .error e := by
  cases hm : modeOfByte mm with
  | none => exact decodeEncode_error_of_mode hm _
  | some m => exact ⟨.short, by simp only [decodeEncode, hm, takeExactly_short h]; rfl⟩

/-- The error is the mode byte's when that is illegal too. -/
theorem decodeDecode_error_of_short (mm : Byte) {l1 l0 : Byte} {b : List Byte} (h : b.length < (be16 l1 l0).toNat) :
    ∃ e, decodeDecode (mm :: l1 :: l0 :: b) = .error e := by
  cases hm : modeOfByte mm with
  | none => exact decodeDecode_error_of_mode hm _
  | some m => exact ⟨.short, by simp only [decodeDecode, hm, takeExactly_short h]; rfl⟩

/-! ### The command decoder and the step -/

/-- A code other than the eight is a reserved command, which has no operands (R79, R81). -/
theorem decodeCommand_reserved {c : Byte} (hc : c ∉ commandCodes) (ops : List Byte) :
    decodeCommand (c :: ops) = decodeBare (.reservedCommand c) ops := by
  simp only [commandCodes, List.mem_cons, List.not_mem_nil, or_false, not_or] at hc
  simp only [decodeCommand, hc, if_false]

/-- An illegal command is no instruction, or the reserved one (surplus bytes after a reserved code: log 6). -/
theorem decodeCommand_of_illegal {bytes : List Byte} (h : Illegal bytes) :
    (∃ e, decodeCommand bytes = .error e) ∨ ∃ c, decodeCommand bytes = .ok (.reservedCommand c) := by
  cases h with
  | reserved c ops hc =>
    rw [decodeCommand_reserved hc]
    cases ops with
    | nil => exact .inr ⟨c, rfl⟩
    | cons _ _ => exact .inl ⟨.surplus, rfl⟩
  | modeBits c mm ops hc hmm =>
    have hm := modeOfByte_eq_none hmm
    simp only [List.mem_cons, List.not_mem_nil, or_false] at hc
    obtain rfl | rfl | rfl := hc
    · exact .inl (decodeOpen_error_of_mode hm ops)
    · exact .inl (decodeEncode_error_of_mode hm ops)
    · exact .inl (decodeDecode_error_of_mode hm ops)
  | shortChecksum l1 l0 d hd => exact .inl ⟨.short, decodeChecksum_short hd⟩
  | shortEncode mm i1 i0 ff ll p hp => exact .inl (decodeEncode_error_of_short mm i1 i0 ff hp)
  | shortDecode mm l1 l0 b hb => exact .inl (decodeDecode_error_of_short mm hb)
  | shortSend i1 i0 ff ll p hp => exact .inl ⟨.short, decodeSend_short hp⟩

/-- An illegal command is rejected, whether the decoder refuses it or reads it as the reserved one (R81, R184). -/
theorem runCommand_of_illegal {bytes : List Byte} (h : Illegal bytes) (s : State) :
    runCommand bytes s = rejectCommand s := by
  obtain ⟨e, he⟩ | ⟨c, hc⟩ := decodeCommand_of_illegal h
  · rw [runCommand, he]
  · rw [runCommand, hc]; rfl

/-- A pending illegal command always goes on, with BAD_COMMAND answered in the state it was taken in. -/
theorem step_of_illegal {s : State} {rest : List Input} {bytes : List Byte} (hi : s.inputs = .command bytes :: rest)
    (h : Illegal bytes) : step s = .next ((taken s rest).respond (.plain .badCommand)) :=
  (step_input hi).trans (runCommand_of_illegal h _)

end Sys2Proof.Machine

namespace Sys2Proof.Proofs

open Sys2Proof.Machine

/-- Settles O5: the step is `step_of_illegal`, whose response is the status alone for every command byte (log 19). -/
theorem illegalCommandAnswersBadCommand : Obligations.IllegalCommandAnswersBadCommand := by
  intro s rest bytes hi hb
  exact ⟨.plain .badCommand, rfl, step_of_illegal hi hb, fun _ _ _ => rfl⟩

end Sys2Proof.Proofs
end

section
/-!
The CHECKSUM command (R100): its loop at the ends of the byte sequence, and the decoder on its encoding.
-/

namespace Sys2Proof.Machine

/-! ### The loop -/

/-- The loop over two parts is the loop over the second, from what the first leaves in the accumulator. -/
theorem checksumFrom_append (acc : Half) (p q : List Byte) :
    checksumFrom acc (p ++ q) = checksumFrom (checksumFrom acc p) q := by
  induction p generalizing acc with
  | nil => rfl
  | cons b bs ih => exact ih (checksumStep acc b)

/-- The last byte is folded last. -/
theorem checksum_concat (d : List Byte) (b : Byte) : checksum (d ++ [b]) = checksumStep (checksum d) b :=
  checksumFrom_append checksumSeed d [b]

/-! ### The decoder -/

/-- Exactly as many bytes as declared (R80). -/
theorem takeExactly_length (bs : List Byte) : takeExactly bs.length bs = .ok bs := by
  rw [takeExactly, if_neg (Nat.lt_irrefl _), if_neg (Nat.lt_irrefl _)]

/-- A count that fits a u16 length operand is read back from it. -/
theorem toNat_ofNat16_length {p : List Byte} (h : fitsU16 p) : (BitVec.ofNat 16 p.length).toNat = p.length := by
  rw [BitVec.toNat_ofNat, Nat.mod_eq_of_lt (by omega)]

/-- The operands of CHECKSUM, `LL LL d…`, decode to it (R79). -/
theorem decodeChecksum_len16 {d : List Byte} (h : fitsU16 d) : decodeChecksum (len16 d ++ d) = .ok (.checksum d) := by
  simp only [len16, beBytes, List.cons_append, List.nil_append, decodeChecksum, be16_hi_lo, toNat_ofNat16_length h,
    takeExactly_length, Except.map]

/-- The command byte 0x10 is CHECKSUM's (R79). -/
theorem decodeCommand_checksumCode (ops : List Byte) : decodeCommand (0x10#8 :: ops) = decodeChecksum ops := rfl

end Sys2Proof.Machine

namespace Sys2Proof.Proofs

open Sys2Proof.Machine

/-- Settles O7: the encoding decodes by `decodeChecksum_len16`; the loop's start and the command's response are the
definitions themselves; a further byte is folded by `checksum_concat`. -/
theorem checksumCommand : Obligations.ChecksumCommand := by
  refine ⟨fun d hd => ?encoding, ?empty, fun d b => ?fold, fun d s => ?response, ?workedExample⟩
  case encoding => exact (decodeCommand_checksumCode (len16 d ++ d)).trans (decodeChecksum_len16 hd)
  case empty => rfl
  case fold => exact checksum_concat d b
  case response => rfl
  case workedExample => decide

end Sys2Proof.Proofs
end

section
/-!
The ENCODE command (R110, R111): the frame of each Mode byte by byte, and the decoder on the command's encoding.
-/

namespace Sys2Proof.Machine

/-! ### The frame of each Mode -/

/-- Full: start byte, CRC and end byte around the other header fields. -/
theorem encodeMessage_full (i : Half) (f : Byte) (p : List Byte) :
    encodeMessage .full i f p
      = [0xFE#8, len8 p, f, hiByte i, loByte i, hiByte (checksum p), loByte (checksum p), 0xEF#8] ++ p :=
  rfl

/-- Start-only: no end byte. -/
theorem encodeMessage_startOnly (i : Half) (f : Byte) (p : List Byte) :
    encodeMessage .startOnly i f p
      = [0xFE#8, len8 p, f, hiByte i, loByte i, hiByte (checksum p), loByte (checksum p)] ++ p :=
  rfl

/-- Delimiter-less with CRC: neither start nor end byte. -/
theorem encodeMessage_delimCrc (i : Half) (f : Byte) (p : List Byte) :
    encodeMessage .delimCrc i f p = [len8 p, f, hiByte i, loByte i, hiByte (checksum p), loByte (checksum p)] ++ p :=
  rfl

/-- Delimiter-less without CRC: length, flags and dataId only. -/
theorem encodeMessage_noCrc (i : Half) (f : Byte) (p : List Byte) :
    encodeMessage .noCrc i f p = [len8 p, f, hiByte i, loByte i] ++ p :=
  rfl

/-! ### The decoder -/

/-- The operands of ENCODE, `MM II II FF LL p…`, decode to it (R79). -/
theorem decodeEncode_operands (m : Mode) (i : Half) (f : Byte) {p : List Byte} (h : fitsU8 p) :
    decodeEncode (modeByte m :: hiByte i :: loByte i :: f :: len8 p :: p) = .ok (.encode m i f p) := by
  simp only [decodeEncode, modeOfByte_modeByte, be16_hi_lo, len8_toNat h, takeExactly_length, Except.map]

/-- The command byte 0x11 is ENCODE's (R79). -/
theorem decodeCommand_encodeCode (ops : List Byte) : decodeCommand (0x11#8 :: ops) = decodeEncode ops := rfl

end Sys2Proof.Machine

namespace Sys2Proof.Proofs

open Sys2Proof.Machine

/-- Settles O10: the encoding decodes by `decodeEncode_operands`, the four frames are the four laws of `encodeMessage`, and
the command's response is its definition. -/
theorem encodeCommand : Obligations.EncodeCommand := by
  refine ⟨fun m i f p hp => ?encoding, fun i f p => ?frames, fun m i f p s => ?response, ?workedExample⟩
  case encoding => exact (decodeCommand_encodeCode _).trans (decodeEncode_operands m i f hp)
  case frames =>
    exact ⟨encodeMessage_full i f p, encodeMessage_startOnly i f p, encodeMessage_delimCrc i f p,
      encodeMessage_noCrc i f p⟩
  case response => rfl
  case workedExample => decide

end Sys2Proof.Proofs
end

section
/-!
The DECODE command (R115): the decoded result in each case of the byte sequence, and the decoder on the command's encoding.
-/

namespace Sys2Proof.Machine

/-! ### The result in each case -/

/-- Fewer bytes than a header (D20). -/
theorem decodeMessage_of_short_header {m : Mode} {fb : List Byte} (h : fb.length < hl m) :
    decodeMessage m fb = (.corruptFrame, Message.absent) :=
  if_pos h

/-- Fewer bytes than the declared frame (D20); with less than a header the result is the same. -/
theorem decodeMessage_of_short_frame {m : Mode} {fb : List Byte} (h : fb.length < hl m + (byteAt fb (offLen m)).toNat) :
    decodeMessage m fb = (.corruptFrame, Message.absent) := by
  by_cases hh : fb.length < hl m
  · exact decodeMessage_of_short_header hh
  · rw [decodeMessage, if_neg hh, if_pos h]

/-- A whole frame: the result turns on the CRC test alone, which only a Mode with a CRC makes. -/
theorem decodeMessage_of_whole_frame {m : Mode} {fb : List Byte} (h : hl m + (byteAt fb (offLen m)).toNat ≤ fb.length) :
    decodeMessage m fb
      = if hasCrc m ∧ checksum ((fb.drop (hl m)).take (byteAt fb (offLen m)).toNat) ≠ half16At fb (offCrc m) then
          (.corruptFrame, Message.absent)
        else
          (.message,
            { dataId := half16At fb (offId m), flags := byteAt fb (offFlags m), size := byteAt fb (offLen m),
              payload := (fb.drop (hl m)).take (byteAt fb (offLen m)).toNat }) := by
  have header : ¬ fb.length < hl m := by omega
  rw [decodeMessage, if_neg header, if_neg (Nat.not_lt.mpr h)]

/-! ### The decoder -/

/-- The operands of DECODE, `MM LL LL b…`, decode to it (R79). -/
theorem decodeDecode_operands (m : Mode) {b : List Byte} (h : fitsU16 b) :
    decodeDecode (modeByte m :: (len16 b ++ b)) = .ok (.decode m b) := by
  simp only [len16, beBytes, List.cons_append, List.nil_append, decodeDecode, modeOfByte_modeByte, be16_hi_lo,
    toNat_ofNat16_length h, takeExactly_length, Except.map]

/-- The command byte 0x12 is DECODE's (R79). -/
theorem decodeCommand_decodeCode (ops : List Byte) : decodeCommand (0x12#8 :: ops) = decodeDecode ops := rfl

end Sys2Proof.Machine

namespace Sys2Proof.Proofs

open Sys2Proof.Machine

/-- Settles O12: the encoding decodes by `decodeDecode_operands`, the command's response is its definition, and the result
follows the byte sequence: short of a header, short of a frame, or whole and decided by the CRC test. -/
theorem decodeCommand : Obligations.DecodeCommand := by
  refine ⟨fun m b hb => ?encoding, fun m fb s => ?response,
    fun m fb => ⟨decodeMessage_of_short_header, decodeMessage_of_short_frame, fun whole => ⟨?mismatch, ?matching⟩⟩⟩
  case encoding => exact (decodeCommand_decodeCode _).trans (decodeDecode_operands m hb)
  case response => rfl
  case mismatch =>
    intro crc bad
    exact (decodeMessage_of_whole_frame whole).trans (if_pos ⟨crc, bad⟩)
  case matching =>
    intro good
    exact (decodeMessage_of_whole_frame whole).trans (if_neg fun ⟨crc, bad⟩ => bad (good crc))

end Sys2Proof.Proofs
end

section
/-!
POLL before the frame: its entry (R131, R132), its scan (R133), and what step 2 makes of an aligned state.
-/

namespace Sys2Proof.Machine

open Sys2Proof.Claim

/-- The command POLL is the operation of R130. -/
theorem exec_poll (s : State) : exec .poll s = execPoll s := rfl

/-- Before OPEN nothing else is read (R132). -/
theorem exec_poll_of_closed {s : State} (h : s.cfg.opened = false) :
    exec .poll s = .next (s.respond (pollSays .notOpen)) :=
  if_pos h

/-- In a Mode without a start byte no scan runs (R131). -/
theorem exec_poll_of_noStart {s : State} (ho : s.cfg.opened = true) (hs : hasStart s.cfg.mode = false) :
    exec .poll s = assembleFrame s :=
  execPoll_no_scan ho fun ⟨start, _⟩ => by simp [hs] at start

/-- While Syncing no scan runs (R132). -/
theorem exec_poll_of_syncing {s : State} (ho : s.cfg.opened = true) (ha : s.asm = .syncing) :
    exec .poll s = assembleFrame s :=
  execPoll_no_scan ho fun ⟨_, idle⟩ => by simp [ha] at idle

/-- Bytes none of which is the start byte are all discarded by the scan (R133). -/
theorem scanned_eq_nil {junk : List Byte} (h : ∀ b ∈ junk, b ≠ startByte) : scanned junk = [] := by
  simpa [scanned] using scanned_append h []

/-- A scan that finds no start byte ends the POLL in Idle (R133). -/
theorem exec_poll_of_scanned_nil {s : State} (ho : s.cfg.opened = true) (hs : hasStart s.cfg.mode = true)
    (hi : s.asm = .idle) (hr : scanned s.rx = []) :
    exec .poll s = .next ((s.setRx []).respond (pollSays .noMessage)) := by
  rw [exec_poll, execPoll_scan ho hs hi, if_pos hr, hr]; rfl

/-- A scan that finds a start byte goes on from it in Syncing (R133). -/
theorem exec_poll_of_scanned_cons {s : State} {tail : List Byte} (ho : s.cfg.opened = true)
    (hs : hasStart s.cfg.mode = true) (hi : s.asm = .idle) (hr : scanned s.rx = startByte :: tail) :
    exec .poll s = assembleFrame ((s.setRx (startByte :: tail)).setAsm .syncing) := by
  rw [exec_poll, execPoll_scan ho hs hi, hr, if_neg (List.cons_ne_nil _ _)]

/-! ### Step 2 on an aligned state -/

@[simp] theorem started_rx (s : State) : (started s).rx = s.rx := by rw [started]; split <;> rfl
@[simp] theorem started_cfg (s : State) : (started s).cfg = s.cfg := by rw [started]; split <;> rfl
@[simp] theorem headLen_started (s : State) : headLen (started s) = headLen s := by simp [headLen]

/-- The header at the head of RX is the same after step 2. -/
theorem headerOk_started {s : State} : HeaderOk (started s) ↔ HeaderOk s := by
  simp only [HeaderOk, started_rx, started_cfg]

/-- So is its admission. -/
theorem admitted_started {s : State} : Admitted (started s) (headLen (started s)) ↔ Admitted s (headLen s) := by
  simp only [Admitted, headLen_started, started_cfg]

/-- Step 2 leaves everything but `asm`, so its write is lost where `asm` is written again. -/
theorem started_eq_setAsm (s : State) : ∃ a, started s = s.setAsm a := by
  rw [started]
  split
  · exact ⟨.syncing, rfl⟩
  · exact ⟨s.asm, rfl⟩

/-- POLL of an aligned state is steps 3 to 8 of the state step 2 leaves: the scan discards nothing. -/
theorem exec_poll_of_aligned {s : State} (h : Aligned s) : exec .poll s = assembleFrame (started s) := by
  obtain ⟨ho, hhead⟩ := h
  by_cases hs : hasStart s.cfg.mode = true
  · rw [started, if_pos hs]
    cases ha : s.asm with
    | syncing => rw [exec_poll_of_syncing ho ha, ← ha, setAsm_self]
    | idle =>
      obtain ⟨tail, hr⟩ := List.head?_eq_some_iff.1 (hhead hs)
      have scan : scanned s.rx = startByte :: tail := by rw [hr, scanned_start]
      rw [exec_poll_of_scanned_cons ho hs ha scan, ← hr, setRx_self]
  · rw [started, if_neg hs, exec_poll_of_noStart ho (by simpa using hs)]

end Sys2Proof.Machine

namespace Sys2Proof.Proofs

open Sys2Proof.Machine Sys2Proof.Claim

/-- Settles O20: before OPEN by `exec_poll_of_closed`; an empty RX is a scan that finds nothing and discards nothing; a
Syncing state is open by R26 and skips the scan. -/
theorem pollEntry : Obligations.PollEntry := by
  refine ⟨fun s => exec_poll_of_closed, fun s ho hs hi hr => ?emptyQueue, fun s ha hsync => ?syncing⟩
  case emptyQueue =>
    have scan : scanned s.rx = [] := by rw [hr]; rfl
    rw [exec_poll_of_scanned_nil ho hs hi scan, ← hr, setRx_self]
  case syncing =>
    obtain ⟨ho, -, hhead⟩ := hsync ha
    exact ⟨exec_poll_of_syncing ho ha, hhead⟩

/-- Settles O21: the scan of the junk alone leaves nothing, and of the junk before a start byte leaves what begins there;
the Syncing state with that RX goes on without a scan. -/
theorem pollScan : Obligations.PollScan := by
  intro s junk ho hs hi hjunk
  refine ⟨fun _ hr => exec_poll_of_scanned_nil ho hs hi (hr ▸ scanned_eq_nil hjunk), fun tail hr => ?_⟩
  have scan : scanned s.rx = startByte :: tail := by rw [hr, scanned_append hjunk, scanned_start]
  have sync : exec .poll ((s.setRx (startByte :: tail)).setAsm .syncing)
      = assembleFrame ((s.setRx (startByte :: tail)).setAsm .syncing) := exec_poll_of_syncing ho rfl
  rw [exec_poll_of_scanned_cons ho hs hi scan, sync]

end Sys2Proof.Proofs
end

section
/-!
Steps 3 to 8 of POLL: one equation for each of the five cases of R140 that they decide (R134 to R138).
-/

namespace Sys2Proof.Machine

open Sys2Proof.Claim

variable {s : State}

/-- Step 3 (R134). -/
theorem assembleFrame_of_short_header (h : s.rx.length < hl s.cfg.mode) :
    assembleFrame s = .next (s.respond (pollSays .noMessage)) :=
  if_pos h

/-- Step 5 (R135), before the length byte counts. -/
theorem assembleFrame_of_wrong_end (hh : hl s.cfg.mode ≤ s.rx.length) (he : hasEnd s.cfg.mode = true)
    (hb : byteAt s.rx (hl s.cfg.mode - 1) ≠ endByte) :
    assembleFrame s = .next (((s.setRx s.rx.tail).setAsm .idle).respond (pollSays .misaligned)) := by
  rw [assembleFrame_eq, if_neg (Nat.not_lt.2 hh), if_pos ⟨he, hb⟩]; rfl

/-- Past step 5, the length byte decides between the last three cases. -/
theorem assembleFrame_of_headerOk (h : HeaderOk s) :
    assembleFrame s
      = if oversize (byteAt s.rx (offLen s.cfg.mode)) s = true then
          .next (((s.setRx s.rx.tail).setAsm .idle).respond (pollSays .frameTooLarge))
        else if s.rx.length < headLen s + hl s.cfg.mode then .next (s.respond (pollSays .noMessage))
        else
          runFrame s.cfg.mode (s.rx.take (headLen s + hl s.cfg.mode))
            (s.setRx (s.rx.drop (headLen s + hl s.cfg.mode))) := by
  obtain ⟨hh, hend⟩ := h
  rw [assembleFrame_eq, if_neg (Nat.not_lt.2 hh), if_neg fun ⟨he, hb⟩ => hb (hend he)]; rfl

/-- Step 6's condition is the failure of admission (R136, R141). -/
theorem oversize_iff_not_admitted (s : State) :
    oversize (byteAt s.rx (offLen s.cfg.mode)) s = true ↔ ¬ Admitted s (headLen s) := by
  rw [oversize_iff, not_and_or, Nat.not_le, Nat.not_le]; rfl

/-- Step 6 (R136), whether or not the frame has arrived. -/
theorem assembleFrame_of_not_admitted (h : HeaderOk s) (ha : ¬ Admitted s (headLen s)) :
    assembleFrame s = .next (((s.setRx s.rx.tail).setAsm .idle).respond (pollSays .frameTooLarge)) := by
  rw [assembleFrame_of_headerOk h, if_pos ((oversize_iff_not_admitted s).2 ha)]

/-- Step 7 (R137). -/
theorem assembleFrame_of_short_frame (h : HeaderOk s) (ha : Admitted s (headLen s))
    (hn : s.rx.length < headLen s + hl s.cfg.mode) :
    assembleFrame s = .next (s.respond (pollSays .noMessage)) := by
  rw [assembleFrame_of_headerOk h, if_neg fun ho => (oversize_iff_not_admitted s).1 ho ha, if_pos hn]

/-- Step 8 (R138): the frame's bytes leave RX and run. -/
theorem assembleFrame_of_whole_frame (h : HeaderOk s) (ha : Admitted s (headLen s))
    (hn : headLen s + hl s.cfg.mode ≤ s.rx.length) :
    assembleFrame s
      = runFrame s.cfg.mode (s.rx.take (headLen s + hl s.cfg.mode))
          (s.setRx (s.rx.drop (headLen s + hl s.cfg.mode))) := by
  rw [assembleFrame_of_headerOk h, if_neg fun ho => (oversize_iff_not_admitted s).1 ho ha, if_neg (Nat.not_lt.2 hn)]

/-- Steps 3 to 8 never set Syncing (R131). -/
theorem assembleFrame_keeps_idle {t : State} (hi : s.asm = .idle) (h : assembleFrame s = .next t) : t.asm = .idle := by
  obtain ⟨k, -, rfl⟩ | ⟨k, -, rfl⟩ | ⟨n, -, -, hrun⟩ := assemble_inv h
  · exact hi
  · rfl
  · obtain ⟨-, a, mm, w, b, k, r, o1, o2, rfl, -⟩ := runFrame_inv hrun
    rfl

end Sys2Proof.Machine

namespace Sys2Proof.Proofs

open Sys2Proof.Machine Sys2Proof.Claim

/-- Settles O19: POLL is steps 3 to 8, which wait for the header and keep Idle. -/
theorem pollWithoutAStartByte : Obligations.PollWithoutAStartByte := by
  intro s ho hs
  rw [exec_poll_of_noStart ho hs]
  exact ⟨rfl, assembleFrame_of_short_header, fun t => assembleFrame_keeps_idle⟩

/-- Settles O22: step 3 of the state step 2 leaves. -/
theorem pollAwaitsHeader : Obligations.PollAwaitsHeader := by
  intro s hal hn
  rw [exec_poll_of_aligned hal, assembleFrame_of_short_header (by simpa using hn)]

/-- Settles O23: step 5 of the state step 2 leaves; it writes `asm` again. -/
theorem pollMisaligned : Obligations.PollMisaligned := by
  intro s hal he hh hb
  obtain ⟨a, e⟩ := started_eq_setAsm s
  rw [exec_poll_of_aligned hal,
    assembleFrame_of_wrong_end (by simpa using hh) (by simpa using he) (by simpa using hb), e]
  rfl

/-- Settles O24: step 6 of the state step 2 leaves; it writes `asm` again. -/
theorem pollOversize : Obligations.PollOversize := by
  intro s hal hok hbig
  obtain ⟨a, e⟩ := started_eq_setAsm s
  have hna : ¬ Admitted s (headLen s) := fun ⟨hcap, hmax⟩ => by omega
  rw [exec_poll_of_aligned hal, assembleFrame_of_not_admitted (headerOk_started.2 hok) (mt admitted_started.1 hna), e]
  rfl

/-- Settles O25: step 7 of the state step 2 leaves. -/
theorem pollAwaitsFrame : Obligations.PollAwaitsFrame := by
  intro s hal hok hadm hn
  rw [exec_poll_of_aligned hal,
    assembleFrame_of_short_frame (headerOk_started.2 hok) (admitted_started.2 hadm) (by simpa using hn)]

end Sys2Proof.Proofs
end

section
/-!
Dispatch (R160) as one next state: what each action it takes leaves, and the dataId ranges that choose between them.
-/

namespace Sys2Proof.Machine

open Sys2Proof.Claim

/-- SendReply is `replyTo` on TX (R169). -/
theorem sendReply_replyTo (id : Half) (p : List Byte) (s : State) :
    sendReply id p s
      = .next ((replyTo s.par.txCap.toNat s.tx (encodeMessage s.cfg.mode id 0x00#8 p)).1,
          s.setTx (replyTo s.par.txCap.toNat s.tx (encodeMessage s.cfg.mode id 0x00#8 p)).2) := by
  rw [sendReply_eq, replyTo, State.txFree]
  split
  · rfl
  · rw [setTx_self]

/-- ACK_FLAG writes the Acknowledge and records the outcome (R161). -/
theorem execAckFlag_replyTo (x : BitVec 7) (s : State) :
    execAckFlag x s
      = .next ((s.setTx (replyTo s.par.txCap.toNat s.tx (ackFrame s.cfg.mode s.msg.dataId)).2).setAck
          (replyTo s.par.txCap.toNat s.tx (ackFrame s.cfg.mode s.msg.dataId)).1) := by
  rw [execAckFlag, sendReply_replyTo]; rfl

/-- PING writes the Ping-reply and suppresses (R162). -/
theorem execPing_replyTo (s : State) :
    execPing s
      = .next ((s.setTx (replyTo s.par.txCap.toNat s.tx (pingReplyFrame s.cfg.mode)).2).respond
          (.polled .noMessage Message.absent s.ack
            (replyTo s.par.txCap.toNat s.tx (pingReplyFrame s.cfg.mode)).1)) := by
  rw [execPing, sendReply_replyTo]; rfl

/-! ### The dataId action in each range of dataIds -/

theorem dispatchAction_of_ping {s : State} (h : s.msg.dataId = 0x0001#16) : dispatchAction s = execPing s := by
  simp [dispatchAction, h]

/-- The five silent system dataIds 2 to 6 (R163 to R167). -/
theorem dispatchAction_of_silent {s : State} (h0 : s.msg.dataId ≠ 0x0000#16) (h1 : s.msg.dataId ≠ 0x0001#16)
    (h6 : s.msg.dataId.toNat ≤ 6) :
    dispatchAction s = .next (s.respond (.polled .noMessage Message.absent s.ack .none)) := by
  have silent : s.msg.dataId = 0x0002#16 ∨ s.msg.dataId = 0x0003#16 ∨ s.msg.dataId = 0x0004#16
      ∨ s.msg.dataId = 0x0005#16 ∨ s.msg.dataId = 0x0006#16 := by
    generalize s.msg.dataId = i at *
    bv_omega
  obtain h | h | h | h | h := silent <;> simp only [dispatchAction, h] <;> rfl

/-- Every dataId from 7 up is the application's (R168). -/
theorem dispatchAction_of_application {s : State} (h : 7 ≤ s.msg.dataId.toNat) :
    dispatchAction s = .next (s.respond (.polled .message s.msg s.ack .none)) := by
  have system : ∀ k : Half, k.toNat < 7 → s.msg.dataId ≠ k := fun k hk e => by rw [e] at h; omega
  simp [dispatchAction, system, execApplication, dispatched]

/-! ### Dispatch -/

/-- Dispatch is the dataId action of the state the acknowledge leaves. -/
theorem dispatch_eq_dispatchAction (r : Message) (s : State) :
    dispatch r s = dispatchAction (((s.setMsg r).setAck (afterAck r s).1).setTx (afterAck r s).2) := by
  simp only [dispatch, afterAck]
  split
  · rw [execAckFlag_replyTo]; rfl
  · rfl

/-- Dispatch on a message with `dataId != 0` always goes on, in the state its rules give (R160). -/
theorem dispatch_eq_dispatchResult {r : Message} (s : State) (h0 : r.dataId ≠ 0x0000#16) :
    dispatch r s = .next (dispatchResult r s) := by
  rw [dispatch_eq_dispatchAction]
  simp only [dispatchResult]
  split_ifs with h1 h6
  · rw [dispatchAction_of_ping h1, execPing_replyTo]; rfl
  · exact dispatchAction_of_silent h0 h1 h6
  · exact dispatchAction_of_application (Nat.lt_of_not_le h6)

end Sys2Proof.Machine
end

section
/-!
A whole frame at the head of RX: it is consumed, decoded, and decides the POLL's result (R138, R139).
-/

namespace Sys2Proof.Machine

open Sys2Proof.Claim

/-- A consumed frame always goes on, in the state that the decoding of its bytes decides (R139). -/
theorem runFrame_next {m : Mode} {bytes : List Byte} {s : State} (hw : s.fb.wf)
    (hb : bytes.length ≤ s.par.bufMax.toNat) :
    runFrame m bytes s
      = .next
          (let s1 := (s.setFb (Memory.writeBytes s.fb 0 bytes)).setAsm .idle
           if (decodeMessage m bytes).1 = .corruptFrame then s1.respond (pollSays .corruptFrame)
           else if (decodeMessage m bytes).2.dataId = 0x0000#16 then s1.respond (pollSays .noMessage)
           else dispatchResult (decodeMessage m bytes).2 s1) := by
  rw [runFrame_eq hw hb]
  simp only
  split_ifs with hc h0
  · rfl
  · rfl
  · exact dispatch_eq_dispatchResult _ h0

end Sys2Proof.Machine

namespace Sys2Proof.Proofs

open Sys2Proof.Machine Sys2Proof.Claim

/-- Settles O26: step 8 of the state step 2 leaves runs the frame's bytes. Admission bounds them by `bufCap`, so they fit
FB, and `runFrame_next` gives the result; consuming the frame writes `asm` again. -/
theorem pollConsumesTheFrame : Obligations.PollConsumesTheFrame := by
  intro s hal hok hadm hn hw hcap
  obtain ⟨a, e⟩ := started_eq_setAsm s
  have fits : (s.rx.take (headLen s + hl s.cfg.mode)).length ≤ s.par.bufMax.toNat := by
    obtain ⟨hfb, -⟩ := hadm
    rw [List.length_take_of_le hn]
    exact Nat.le_trans hfb hcap
  rw [exec_poll_of_aligned hal,
    assembleFrame_of_whole_frame (headerOk_started.2 hok) (admitted_started.2 hadm) (by simpa using hn), started_rx,
    started_cfg, headLen_started, e]
  exact runFrame_next hw fits

end Sys2Proof.Proofs
end

section
/-!
Dispatch in full (R160).
-/

namespace Sys2Proof.Proofs

open Sys2Proof.Machine

/-- Settles O41: the acknowledge's part is `dispatch_eq_dispatchAction`, and the dataId ranges of `dispatchResult` are the three
laws of `dispatchAction`; both are joined in `dispatch_eq_dispatchResult`. -/
theorem dispatchInFull : Obligations.DispatchInFull :=
  fun _ s h0 => dispatch_eq_dispatchResult s h0

end Sys2Proof.Proofs
end

section
/-!
The session's configuration (R180 to R182): OPEN, SET_BUFFER_SIZE and GET_BUFFER_SIZE decode from their encodings, and what
the two buffer commands answer before and after OPEN.
-/

namespace Sys2Proof.Machine

/-! ### The decoder -/

/-- The encoding of OPEN, `0x01 MM PP`, decodes to it (R79). -/
theorem decodeCommand_open (m : Mode) (mp : Byte) :
    decodeCommand [0x01#8, modeByte m, mp] = .ok (.openSession m mp) := by
  change decodeOpen [modeByte m, mp] = _
  simp only [decodeOpen, modeOfByte_modeByte]

/-- The encoding of SET_BUFFER_SIZE, `0x02 NN NN`, decodes to it (R79). -/
theorem decodeCommand_setBufferSize (n : Half) : decodeCommand (0x02#8 :: beBytes n) = .ok (.setBufferSize n) := by
  change decodeSetBufferSize [hiByte n, loByte n] = _
  rw [decodeSetBufferSize, be16_hi_lo]

/-! ### The buffer commands before and after OPEN -/

theorem exec_setBufferSize_of_closed {s : State} (h : s.cfg.opened = false) (n : Half) :
    exec (.setBufferSize n) s = .next (s.respond (.plain .notOpen)) :=
  if_pos h

/-- The value stored is the clamped one (R23, R181). -/
theorem exec_setBufferSize_of_open {s : State} (h : s.cfg.opened = true) (n : Half) :
    exec (.setBufferSize n) s = .next ((s.writeBufCap n).respond (.plain .ok)) :=
  if_neg (by simp [h])

theorem exec_getBufferSize_of_closed {s : State} (h : s.cfg.opened = false) :
    exec .getBufferSize s = .next (s.respond (.plain .notOpen)) :=
  if_pos h

theorem exec_getBufferSize_of_open {s : State} (h : s.cfg.opened = true) :
    exec .getBufferSize s = .next (s.respond (.bufferSize s.cfg.bufCap)) :=
  if_neg (by simp [h])

/-- The clamp stores the bound itself where the value is greater. -/
theorem minHalf_eq_right {a b : Half} (h : b.toNat < a.toNat) : minHalf a b = b :=
  if_neg (Nat.not_le.mpr h)

end Sys2Proof.Machine

namespace Sys2Proof.Proofs

open Sys2Proof.Machine

/-- Settles O14: the encoding decodes by `decodeCommand_open`, an illegal mode byte is a form of `Illegal`, and the state
OPEN leaves is its definition, with `minHalf` as the minimum. -/
theorem openCommand : Obligations.OpenCommand := by
  refine ⟨decodeCommand_open, fun mm mp s rest hmm hi => ?illegalMode, fun m mp s => ?written⟩
  case illegalMode => exact step_of_illegal hi (.modeBits 0x01#8 mm [mp] (by decide) hmm)
  case written => exact ⟨minHalf s.par.rxCap s.par.bufMax, minHalf_toNat _ _, rfl⟩

/-- Settles O15: the encoding decodes by `decodeCommand_setBufferSize`; before OPEN and after it the command does what the
two laws of its execution say, with `minHalf` as the minimum. -/
theorem setBufferSizeCommand : Obligations.SetBufferSizeCommand := by
  refine ⟨decodeCommand_setBufferSize, fun n s closed => exec_setBufferSize_of_closed closed n, fun n s opened => ?stored⟩
  exact ⟨minHalf n s.par.bufMax, minHalf_toNat _ _, exec_setBufferSize_of_open opened n⟩

/-- Settles O16: the answers are the two laws of the command's execution. SET_BUFFER_SIZE leaves the session open, so the
value read after it is the clamped one it stored. -/
theorem getBufferSizeCommand : Obligations.GetBufferSizeCommand := by
  refine ⟨rfl, fun s closed => ⟨.plain .notOpen, rfl, exec_getBufferSize_of_closed closed⟩,
    fun s opened => exec_getBufferSize_of_open opened, fun n s opened => ?readBack⟩
  have stillOpen : ((s.writeBufCap n).respond (.plain .ok)).cfg.opened = true := opened
  exact ⟨_, minHalf n s.par.bufMax, exec_setBufferSize_of_open opened n, exec_getBufferSize_of_open stillOpen,
    minHalf_toNat _ _, minHalf_eq_right⟩

end Sys2Proof.Proofs
end

section
/-!
The SEND command (R183): the decoder on its encoding, and what each of its checks answers, in the rule's order.
-/

namespace Sys2Proof.Machine

open Sys2Proof.Claim

/-- The operands of SEND, `II II FF LL p…`, decode to it (R79). -/
theorem decodeSend_operands (i : Half) (f : Byte) {p : List Byte} (h : fitsU8 p) :
    decodeSend (hiByte i :: loByte i :: f :: len8 p :: p) = .ok (.send i f p) := by
  simp only [decodeSend, be16_hi_lo, len8_toNat h, takeExactly_length, Except.map]

/-- The command byte 0x21 is SEND's (R79). -/
theorem decodeCommand_sendCode (ops : List Byte) : decodeCommand (0x21#8 :: ops) = decodeSend ops := rfl

variable {i : Half} {f : Byte} {p : List Byte} {s : State}

theorem exec_send_of_closed (h : s.cfg.opened = false) : exec (.send i f p) s = .next (s.respond (.plain .notOpen)) :=
  if_pos h

theorem exec_send_of_not_admitted (ho : s.cfg.opened = true) (ha : ¬ Admitted s p.length) :
    exec (.send i f p) s = .next (s.respond (.plain .frameTooLarge)) := by
  have tooLarge : s.cfg.maxPayload.toNat < p.length ∨ s.cfg.bufCap.toNat < p.length + hl s.cfg.mode := by omega
  rw [exec, execSend, if_neg (by simp [ho]), if_pos tooLarge, raiseStatus_eq]

/-- Past both checks of the session, SEND turns on the room in TX alone: all of the frame goes there or nothing (D24). -/
theorem exec_send_of_admitted (ho : s.cfg.opened = true) (ha : Admitted s p.length) :
    exec (.send i f p) s
      = if s.txFree < (encodeMessage s.cfg.mode i f p).length then .next (s.respond (.plain .txFull))
        else .next ((s.setTx (s.tx ++ encodeMessage s.cfg.mode i f p)).respond (.plain .ok)) := by
  have notTooLarge : ¬ (s.cfg.maxPayload.toNat < p.length ∨ s.cfg.bufCap.toNat < p.length + hl s.cfg.mode) := by omega
  rw [exec, execSend, if_neg (by simp [ho]), if_neg notTooLarge]
  simp only
  split_ifs with full
  · rfl
  · rw [txWrite_eq (Nat.not_lt.mp full), andThen_next]

end Sys2Proof.Machine

namespace Sys2Proof.Proofs

open Sys2Proof.Machine

/-- Settles O17: the encoding decodes by `decodeSend_operands`; a payload or frame over its limit is one not admitted, and an
admitted frame is appended or refused by the room in TX (`exec_send_of_admitted`). -/
theorem sendCommand : Obligations.SendCommand := by
  refine ⟨fun i f p hp => ?encoding, fun i f p s => ⟨exec_send_of_closed, ?tooLarge, ?full, ?room⟩⟩
  case encoding => exact (decodeCommand_sendCode _).trans (decodeSend_operands i f hp)
  case tooLarge =>
    intro opened overLimit
    exact exec_send_of_not_admitted opened (by omega)
  case full =>
    intro opened admitted full
    exact (exec_send_of_admitted opened admitted).trans (if_pos full)
  case room =>
    intro opened admitted room
    exact (exec_send_of_admitted opened admitted).trans (if_neg (Nat.not_lt.mpr room))

end Sys2Proof.Proofs
end

section
/-!
Nothing is fatal (R200): from a legal state every command is answered, whatever its bytes and whatever RX holds, and the line
agents and the power-on reset go on.
-/

namespace Sys2Proof.Machine

open Sys2Proof.Claim

/-- The outcome of a command that ends with a response (R11), the inputs `rest` next. -/
def Answers (rest : List Input) (o : Res State) : Prop := ∃ t r, o = .next t ∧ t.resp = some r ∧ t.inputs = rest

theorem goesOn_of_answers {rest : List Input} {o : Res State} (h : Answers rest o) : GoesOn o := by
  obtain ⟨t, -, ht, -⟩ := h
  exact ⟨t, ht⟩

/-- An operation that ends by responding answers; no write before the response touches the inputs. -/
theorem answers_respond (t : State) (r : Response) : Answers t.inputs (.next (t.respond r)) := ⟨_, r, rfl, rfl, rfl⟩

/-! ### POLL, in a state whose FB is canonical and holds every frame that `cfg.bufCap` admits (R23, R28, R117) -/

variable {s : State}

/-- A frame that fits FB is answered, whatever its bytes. -/
theorem runFrame_answers (hw : s.fb.wf) (m : Mode) {bytes : List Byte} (hb : bytes.length ≤ s.par.bufMax.toNat) :
    Answers s.inputs (runFrame m bytes s) := by
  have goes := runFrame_next (m := m) hw hb
  obtain ⟨-, a, mm, w, b, k, r, o1, o2, e, -⟩ := runFrame_inv goes
  rw [goes, e]
  exact answers_respond _ _

/-- Steps 3 to 8 answer: the only write that could overflow is the frame's to FB, and step 6 has bounded it by `bufCap`. -/
theorem assembleFrame_answers (hw : s.fb.wf) (hcap : s.cfg.bufCap.toNat ≤ s.par.bufMax.toNat) :
    Answers s.inputs (assembleFrame s) := by
  rw [assembleFrame_eq]
  split_ifs with short wrongEnd big partly
  case pos | pos | pos | pos => exact answers_respond _ _
  case neg =>
    rw [oversize_iff, not_or] at big
    obtain ⟨admitted, -⟩ := big
    have fits : (byteAt s.rx (offLen s.cfg.mode)).toNat + hl s.cfg.mode ≤ s.par.bufMax.toNat := by omega
    exact runFrame_answers (s := s.setRx (s.rx.drop _)) hw _ (Nat.le_trans (List.length_take_le _ _) fits)

/-- POLL answers: before OPEN, when its scan finds nothing, and otherwise by steps 3 to 8. -/
theorem execPoll_answers (hw : s.fb.wf) (hcap : s.cfg.bufCap.toNat ≤ s.par.bufMax.toNat) :
    Answers s.inputs (execPoll s) := by
  by_cases ho : s.cfg.opened = true
  · by_cases scans : hasStart s.cfg.mode = true ∧ s.asm = .idle
    · obtain ⟨hs, hi⟩ := scans
      rw [execPoll_scan ho hs hi]
      split_ifs
      · exact answers_respond _ _
      · exact assembleFrame_answers (s := (s.setRx _).setAsm _) hw hcap
    · rw [execPoll_no_scan ho scans]
      exact assembleFrame_answers hw hcap
  · rw [← exec_poll, exec_poll_of_closed (by simpa using ho)]
    exact answers_respond _ _

/-! ### Every command -/

/-- Whatever the bytes: no instruction is BAD_COMMAND, POLL is above, and the others never stop (`command_inv`). -/
theorem runCommand_answers (hw : s.fb.wf) (hcap : s.cfg.bufCap.toNat ≤ s.par.bufMax.toNat) (bytes : List Byte) :
    Answers s.inputs (runCommand bytes s) := by
  rw [runCommand]
  cases hd : decodeCommand bytes with
  | error e => exact answers_respond s (.plain .badCommand)
  | ok i =>
    by_cases hp : i = .poll
    · rw [hp]
      exact execPoll_answers hw hcap
    · obtain ⟨c, a, w, r, e, -⟩ := command_inv i (decodeCommand_format hd) hp s
      simp only [e]
      exact answers_respond _ _

/-- Taking the command from the inputs leaves FB and its bounds. -/
theorem step_command_answers (h : Inv s) {bytes : List Byte} {rest : List Input}
    (hi : s.inputs = .command bytes :: rest) : Answers rest (step s) := by
  rw [step_input hi]
  exact runCommand_answers (s := taken s rest) h.fbWf h.bufCap bytes

/-- A step from a legal state stops only at a foreign read of RX. -/
theorem step_goesOn (h : Inv s) (own : ∀ rest, s.inputs ≠ .foreignRead :: rest) : GoesOn (step s) := by
  cases hi : s.inputs with
  | nil => exact ⟨_, step_nil hi⟩
  | cons i rest =>
    cases i with
    | command bytes => exact goesOn_of_answers (step_command_answers h hi)
    | rxArrive b => exact ⟨_, step_rxArrive hi⟩
    | txDrain => exact ⟨_, step_txDrain hi⟩
    | powerOn => exact ⟨_, step_powerOn hi⟩
    | foreignRead => exact absurd hi (own rest)

end Sys2Proof.Machine

namespace Sys2Proof.Proofs

open Sys2Proof.Machine

/-- Settles O52: a step goes on for each kind of input (`step_goesOn`), and a command, whatever its bytes, is answered
(`step_command_answers`); FB holds what step 6 of POLL admits because `bufCap` is legal. -/
theorem nothingIsFatal : Obligations.NothingIsFatal :=
  fun _ h own => ⟨step_goesOn h own, fun _ _ => step_command_answers h⟩

end Sys2Proof.Proofs
end

section
/-!
Decoding an encoding (R72, R76 to R80): what each decoder answers on the bytes the encoder gives it.
-/

namespace Sys2Proof.Machine

/-! ### Flags and dataIds -/

@[simp] theorem ackRequested_flagsWithAck (x : BitVec 7) : ackRequested (flagsWithAck x) = true := by
  rw [ackRequested, flagsWithAck, BitVec.getLsbD_append]; rfl

@[simp] theorem flagsHigh_flagsWithAck (x : BitVec 7) : flagsHigh (flagsWithAck x) = x := by
  apply BitVec.eq_of_getLsbD_eq
  intro i hi
  have above : ¬ 1 + i < 1 := by omega
  rw [flagsHigh, flagsWithAck, BitVec.getLsbD_extractLsb', BitVec.getLsbD_append]
  simp [hi, above]

/-- A flags byte that requests an acknowledge decodes to its upper bits (R78). -/
theorem decodeFlags_of_requested {f : Byte} (h : ackRequested f = true) : decodeFlags f = .ok (.ackFlag (flagsHigh f)) :=
  if_pos h

/-- Every dataId from 7 up is the application's (R77). -/
theorem decodeDataId_of_application {i : Half} (h : 7 ≤ i.toNat) : decodeDataId i = .application i := by
  have system : ∀ k : Half, k.toNat < 7 → i ≠ k := fun k hk e => by rw [e] at h; omega
  simp [decodeDataId, system]

/-! ### Frames -/

/-- A frame row names its CRC only in a Mode that has one (R70). -/
theorem frameInstr_congr {m : Mode} {c c' : Half} (h : hasCrc m = true → c = c') (f : Byte) (i : Half) (p : List Byte) :
    frameInstr m f i c p = frameInstr m f i c' p := by
  cases m with
  | noCrc => rfl
  | full | startOnly | delimCrc => rw [h rfl]

/-- A frame's bytes decode to the frame row of its Mode (R72, R73). -/
theorem decodeFrame_frameBytes (m : Mode) (f : Byte) (i c : Half) {p : List Byte} (h : fitsU8 p) :
    decodeFrame m (frameBytes m f i c p) = .ok (frameInstr m f i c p) := by
  obtain ⟨hlen, hflags, hid, hcrc, hend, hstart⟩ := frameBytes_fields m f i c p []
  have hdrop := frameBytes_drop_hl m f i c p []
  simp only [List.append_nil] at hlen hflags hid hcrc hend hstart hdrop
  have long : ¬ (frameBytes m f i c p).length < hl m := by rw [frameBytes_length]; omega
  have starts : ¬ (hasStart m && (byteAt (frameBytes m f i c p) 0 != startByte)) = true := by simpa using hstart
  have ends : ¬ (hasEnd m && (byteAt (frameBytes m f i c p) (offEnd m) != endByte)) = true := by simpa using hend
  rw [decodeFrame, if_neg long, if_neg starts, if_neg ends, hlen, hflags, hid, hdrop, len8_toNat h, takeExactly_length]
  exact congrArg Except.ok (frameInstr_congr hcrc f i p)

end Sys2Proof.Machine

namespace Sys2Proof.Proofs

open Sys2Proof.Machine

/-- Settles O1: each command by the law of its operands, each frame by `decodeFrame_frameBytes`, the dataIds and the flags
byte by their own laws; well-formedness gives the bound that the length operand or the code range needs. -/
theorem decodeOfEncodeIsTheInstruction : Obligations.DecodeOfEncodeIsTheInstruction := by
  intro i hwf
  cases i with
  | openSession m mp => exact decodeCommand_open m mp
  | setBufferSize n => exact decodeCommand_setBufferSize n
  | getBufferSize => rfl
  | checksum d => exact (decodeCommand_checksumCode _).trans (decodeChecksum_len16 (of_decide_eq_true hwf))
  | encode m i f p => exact (decodeCommand_encodeCode _).trans (decodeEncode_operands m i f (of_decide_eq_true hwf))
  | decode m b => exact (decodeCommand_decodeCode _).trans (decodeDecode_operands m (of_decide_eq_true hwf))
  | poll => rfl
  | send i f p => exact (decodeCommand_sendCode _).trans (decodeSend_operands i f (of_decide_eq_true hwf))
  | reservedCommand c =>
    have reserved : c ∉ commandCodes := by simpa [Instr.wf] using hwf
    exact decodeCommand_reserved reserved []
  | frameFull f i c p => exact decodeFrame_frameBytes .full f i c (of_decide_eq_true hwf)
  | frameStartOnly f i c p => exact decodeFrame_frameBytes .startOnly f i c (of_decide_eq_true hwf)
  | frameDelimCrc f i c p => exact decodeFrame_frameBytes .delimCrc f i c (of_decide_eq_true hwf)
  | frameNoCrc f i p => exact decodeFrame_frameBytes .noCrc f i 0#16 (of_decide_eq_true hwf)
  | sysNone => rfl
  | ping => rfl
  | pingReply => rfl
  | subscribe => rfl
  | unsubscribe => rfl
  | forceUnsubscribe => rfl
  | acknowledge => rfl
  | application i =>
    change Except.ok (decodeDataId (be16 (hiByte i) (loByte i))) = _
    rw [be16_hi_lo, decodeDataId_of_application (of_decide_eq_true hwf)]
  | ackFlag x =>
    exact (decodeFlags_of_requested (ackRequested_flagsWithAck x)).trans (by rw [flagsHigh_flagsWithAck])

end Sys2Proof.Proofs
end

section
/-!
The machine's invariant, operation by operation: R26 while Syncing, the queues' and FB's bounds (R23, R28, R31, R32), and the
steps that keep them. What an operation can do is read off its inversion lemma.
-/

namespace Sys2Proof.Machine

variable {s t : State}

/-! ### R26 -/

/-- POLL leaves Syncing only with the start byte at the head of RX: its scan found it there, or it was there before. -/
theorem execPoll_keeps_sync (h : SyncInv s) (hp : execPoll s = .next t) : SyncInv t := by
  obtain ⟨n, a, k, -, -, rfl, hsync⟩ | ⟨-, j, n, a, -, -, hrun⟩ := poll_inv hp
  · intro ha
    obtain found | ⟨rfl, was⟩ := hsync ha
    · exact found
    · exact h was
  · obtain ⟨-, _, _, _, _, _, _, _, _, rfl, -⟩ := runFrame_inv hrun
    exact nofun

/-- The other commands keep `asm`, the Mode and RX, or are OPEN, which ends in Idle. -/
theorem exec_command_keeps_sync (h : SyncInv s) {i : Instr} (hf : i.format = .command) (hp : i ≠ .poll)
    (he : exec i s = .next t) : SyncInv t := by
  obtain ⟨c, a, w, r, e, -, hwrites, -⟩ := command_inv i hf hp s
  cases e.symm.trans he
  obtain ⟨rfl, rfl⟩ | ⟨n, -, rfl, hopened, hmode, -⟩ | ⟨m, mp, -, rfl, -⟩ := hwrites
  · exact h
  · intro ha
    obtain ⟨ho, hs, hhead⟩ := h ha
    exact ⟨hopened.trans ho, (congrArg hasStart hmode).trans hs, hhead⟩
  · exact nofun

/-- An arriving byte goes to the tail of RX, so the head of a queue that has one stays. -/
theorem rxArrive_keeps_sync (h : SyncInv s) (b : Byte) : SyncInv (rxArrive b s) := by
  by_cases room : s.rx.length < s.par.rxCap.toNat
  · rw [rxArrive_of_room room]
    intro ha
    obtain ⟨ho, hs, hhead⟩ := h ha
    refine ⟨ho, hs, ?_⟩
    simp [hhead]
  · rwa [rxArrive_of_full (Nat.not_lt.1 room)]

theorem step_keeps_sync (h : SyncInv s) (hstep : step s = .next t) : SyncInv t := by
  have taken : ∀ rest, SyncInv ((s.setInputs rest).setResp none) := fun _ => h
  obtain ⟨-, rfl⟩ | ⟨rest, -, hp⟩ | ⟨rest, bs, e, -, -, rfl⟩ | ⟨rest, bs, i, -, hd, hnp, he⟩ | ⟨rest, b, -, rfl⟩
    | ⟨rest, -, rfl⟩ | ⟨rest, -, rfl⟩ := step_kinds hstep
  case inr.inl => exact execPoll_keeps_sync (taken rest) hp
  case inr.inr.inr.inl => exact exec_command_keeps_sync (taken rest) (decodeCommand_format hd) hnp he
  case inr.inr.inr.inr.inl => exact rxArrive_keeps_sync (taken rest) b
  case inr.inr.inr.inr.inr.inr => exact nofun
  all_goals exact h

/-! ### The whole invariant -/

/-- What is written whole within TX's room keeps TX within its capacity (R32). -/
theorem length_append_le_txCap (h : s.tx.length ≤ s.par.txCap.toNat) {w : List Byte} (hw : w.length ≤ s.txFree) :
    (s.tx ++ w).length ≤ s.par.txCap.toNat := by
  simp only [State.txFree] at hw
  rw [List.length_append]
  omega

/-- POLL takes from RX, writes replies within TX's room, and fills FB within its bytes. -/
theorem execPoll_keeps_inv (h : Inv s) (hp : execPoll s = .next t) : Inv t := by
  have sync := execPoll_keeps_sync h.sync hp
  obtain ⟨n, a, k, -, -, rfl, -⟩ | ⟨-, j, n, a, -, -, hrun⟩ := poll_inv hp
  · exact ⟨h.params, Nat.le_trans (List.drop_sublist ..).length_le h.rxFits, h.txFits, h.bufCap, sync, h.fbWf, h.fbBelow⟩
  · obtain ⟨hfits, _, _, w, b, _, _, _, _, rfl, -, -, hfree, -⟩ := runFrame_inv hrun
    have txFits := length_append_le_txCap h.txFits hfree
    rw [← List.append_assoc] at txFits
    exact ⟨h.params, Nat.le_trans (List.drop_sublist ..).length_le h.rxFits, txFits, h.bufCap, sync,
      Memory.writeBytes_wf h.fbWf 0 _, Memory.writeBytes_below h.fbBelow 0 _ (by simpa using hfits)⟩

/-- The other commands append to TX within its room and store only legal values in `bufCap` (R23, R180, R181). -/
theorem exec_command_keeps_inv (h : Inv s) {i : Instr} (hf : i.format = .command) (hp : i ≠ .poll)
    (he : exec i s = .next t) : Inv t := by
  have sync := exec_command_keeps_sync h.sync hf hp he
  obtain ⟨c, a, w, r, e, hfree, hwrites, -⟩ := command_inv i hf hp s
  cases e.symm.trans he
  have bufCap : c.bufCap.toNat ≤ s.par.bufMax.toNat := by
    obtain ⟨rfl, -⟩ | ⟨-, -, -, -, -, -, hcap⟩ | ⟨-, -, -, -, hcap⟩ := hwrites
    · exact h.bufCap
    · exact hcap
    · exact hcap
  exact ⟨h.params, h.rxFits, length_append_le_txCap h.txFits hfree, bufCap, sync, h.fbWf, h.fbBelow⟩

/-- A byte arrives only where RX has room (R59). -/
theorem rxArrive_keeps_inv (h : Inv s) (b : Byte) : Inv (rxArrive b s) := by
  have sync := rxArrive_keeps_sync h.sync b
  by_cases room : s.rx.length < s.par.rxCap.toNat
  · rw [rxArrive_of_room room] at sync ⊢
    have rxFits : (s.rx ++ [b]).length ≤ s.par.rxCap.toNat := by simpa using room
    exact ⟨h.params, rxFits, h.txFits, h.bufCap, sync, h.fbWf, h.fbBelow⟩
  · rwa [rxArrive_of_full (Nat.not_lt.1 room)]

/-- A drain only shortens TX (R60). -/
theorem txDrain_keeps_inv (h : Inv s) : Inv (txDrain s) := by
  have txFits : s.tx.tail.length ≤ s.par.txCap.toNat := by
    have := h.txFits
    rw [List.length_tail]
    omega
  exact ⟨h.params, h.rxFits, txFits, h.bufCap, h.sync, h.fbWf, h.fbBelow⟩

/-- Registers as R37 sets them and an empty FB are legal; the queues are untouched (R230). -/
theorem powerOn_keeps_inv (h : Inv s) : Inv (powerOn s) :=
  ⟨h.params, h.rxFits, h.txFits, Nat.zero_le _, nofun, ⟨List.Pairwise.nil, nofun⟩, nofun⟩

/-- At power-up the registers are as R37 sets them, FB is empty, and the queues hold what R7 lets them hold. -/
theorem powerUp_inv {p : Params} {rx0 tx0 : List Byte} (hp : p.wf) (hrx : rx0.length ≤ p.rxCap.toNat)
    (htx : tx0.length ≤ p.txCap.toNat) : Inv (State.powerUp p rx0 tx0) :=
  ⟨hp, hrx, htx, Nat.zero_le _, nofun, ⟨List.Pairwise.nil, nofun⟩, nofun⟩

/-- The invariant speaks of neither the response nor the inputs. -/
theorem inv_of_same {u : State} (h : Inv s) (hpar : u.par = s.par) (hcfg : u.cfg = s.cfg) (hasm : u.asm = s.asm)
    (hfb : u.fb = s.fb) (hrx : u.rx = s.rx) (htx : u.tx = s.tx) : Inv u := by
  obtain ⟨par, cfg, asm, fb, rx, tx, msg, ack, resp, inputs⟩ := u
  cases hpar; cases hcfg; cases hasm; cases hfb; cases hrx; cases htx
  exact ⟨h.params, h.rxFits, h.txFits, h.bufCap, h.sync, h.fbWf, h.fbBelow⟩

theorem step_keeps_inv (h : Inv s) (hstep : step s = .next t) : Inv t := by
  have taken : ∀ rest, Inv ((s.setInputs rest).setResp none) := fun _ => inv_of_same h rfl rfl rfl rfl rfl rfl
  obtain ⟨-, rfl⟩ | ⟨rest, -, hp⟩ | ⟨rest, bs, e, -, -, rfl⟩ | ⟨rest, bs, i, -, hd, hnp, he⟩ | ⟨rest, b, -, rfl⟩
    | ⟨rest, -, rfl⟩ | ⟨rest, -, rfl⟩ := step_kinds hstep
  case inl => exact inv_of_same h rfl rfl rfl rfl rfl rfl
  case inr.inl => exact execPoll_keeps_inv (taken rest) hp
  case inr.inr.inl => exact inv_of_same h rfl rfl rfl rfl rfl rfl
  case inr.inr.inr.inl => exact exec_command_keeps_inv (taken rest) (decodeCommand_format hd) hnp he
  case inr.inr.inr.inr.inl => exact rxArrive_keeps_inv (taken rest) b
  case inr.inr.inr.inr.inr.inl => exact txDrain_keeps_inv (taken rest)
  case inr.inr.inr.inr.inr.inr => exact powerOn_keeps_inv (taken rest)

/-! ### The registers by number -/

theorem asmCode_le_one (a : Asm) : asmCode a ≤ 1 := by cases a <;> decide

theorem asmCode_eq_one_iff (a : Asm) : asmCode a = 1 ↔ a = .syncing := by cases a <;> decide

end Sys2Proof.Machine

namespace Sys2Proof.Proofs

open Sys2Proof.Machine

/-- Settles O49: by the kind of input (`step_keeps_sync`); POLL sets Syncing only where its scan stopped at a start byte, and
nothing but POLL takes that byte. -/
theorem stepKeepsTheSyncInvariant : Obligations.StepKeepsTheSyncInvariant :=
  fun _ _ h hstep => step_keeps_sync h hstep

/-- Settles O50: by the kind of input (`step_keeps_inv`), each operation keeping every clause. -/
theorem stepKeepsTheInvariant : Obligations.StepKeepsTheInvariant :=
  fun _ _ h hstep => step_keeps_inv h hstep

/-- Settles O51: `powerUp_inv`; the reset state is the power-up of the vectors' parameters with empty queues. -/
theorem resetMeetsTheInvariant : Obligations.ResetMeetsTheInvariant :=
  ⟨fun _ _ _ => powerUp_inv, powerUp_inv (by decide) (by decide) (by decide)⟩

/-- Settles O58: each register reads its field; the codes of the Mode, of `asm` and of `opened` are bounded by their widths,
`bufCap` by the invariant. -/
theorem registersAreLegal : Obligations.RegistersAreLegal := by
  intro s h
  have mode := (modeCode s.cfg.mode).isLt
  have maxPayload := s.cfg.maxPayload.isLt
  refine ⟨_, _, _, _, _, rfl, rfl, rfl, rfl, rfl, ?opened, by omega, by omega, h.bufCap, asmCode_le_one _, ?openedIff, rfl,
    rfl, rfl, asmCode_eq_one_iff _⟩
  case opened => split <;> omega
  case openedIff => split <;> simp_all

end Sys2Proof.Proofs
end

section
/-!
FB, the dispatcher's locals and the last response are scratch (R28): every operation reads the same and answers the same
whatever they hold.
-/

namespace Sys2Proof.Machine

open Sys2Proof.Claim

variable {s t : State}

/-- Two states that differ in scratch only are one state with the scratch replaced. -/
theorem exists_scratch_of_same (h : SameButScratch s t) :
    ∃ fb msg ack resp, t = (((s.setFb fb).setMsg msg).setAck ack).setResp resp := by
  obtain ⟨hpar, hcfg, hasm, hrx, htx, hinputs⟩ := h
  obtain ⟨par, cfg, asm, fb, rx, tx, msg, ack, resp, inputs⟩ := t
  cases hpar; cases hcfg; cases hasm; cases hrx; cases htx; cases hinputs
  exact ⟨fb, msg, ack, resp, rfl⟩

/-- The same response to states that differ in scratch only. -/
theorem indistinguishable_respond (h : SameButScratch s t) (r : Response) :
    Indistinguishable (.next (s.respond r)) (.next (t.respond r)) := ⟨h, rfl⟩

/-! ### POLL -/

/-- Dispatch reads the message it is given, the Mode and TX, and no scratch. -/
theorem dispatchResult_indistinguishable (h : SameButScratch s t) (r : Message) :
    Indistinguishable (.next (dispatchResult r s)) (.next (dispatchResult r t)) := by
  obtain ⟨fb, msg, ack, resp, rfl⟩ := exists_scratch_of_same h
  have afterAck_eq : afterAck r ((((s.setFb fb).setMsg msg).setAck ack).setResp resp) = afterAck r s := rfl
  simp only [dispatchResult, afterAck_eq]
  split_ifs <;> exact ⟨⟨rfl, rfl, rfl, rfl, rfl, rfl⟩, rfl⟩

/-- A consumed frame is decoded from the bytes just stored, whatever FB held before. -/
theorem runFrame_indistinguishable (hs : s.fb.wf) (ht : t.fb.wf) (h : SameButScratch s t) (m : Mode) (bytes : List Byte) :
    Indistinguishable (runFrame m bytes s) (runFrame m bytes t) := by
  obtain ⟨hpar, hcfg, hasm, hrx, htx, hinputs⟩ := h
  by_cases hb : bytes.length ≤ s.par.bufMax.toNat
  · rw [runFrame_next hs hb, runFrame_next ht (hpar ▸ hb)]
    have h1 : SameButScratch ((s.setFb (Memory.writeBytes s.fb 0 bytes)).setAsm .idle)
        ((t.setFb (Memory.writeBytes t.fb 0 bytes)).setAsm .idle) := ⟨hpar, hcfg, rfl, hrx, htx, hinputs⟩
    simp only
    split_ifs
    · exact indistinguishable_respond h1 _
    · exact indistinguishable_respond h1 _
    · exact dispatchResult_indistinguishable h1 _
  · have stop : ∀ u : State, ¬ bytes.length ≤ u.par.bufMax.toNat → runFrame m bytes u = .fault .frameBufferOverflow :=
      fun u hu => by rw [runFrame, fbWrite, if_neg hu, andThen_fault]
    rw [stop s hb, stop t (hpar ▸ hb)]
    rfl

/-- Steps 3 to 8 decide by the configuration and RX. -/
theorem assembleFrame_indistinguishable (hs : s.fb.wf) (ht : t.fb.wf) (h : SameButScratch s t) :
    Indistinguishable (assembleFrame s) (assembleFrame t) := by
  obtain ⟨hpar, hcfg, hasm, hrx, htx, hinputs⟩ := h
  have oversize_eq : ∀ b, oversize b t = oversize b s := fun b => by simp only [oversize, hcfg]
  rw [assembleFrame_eq, assembleFrame_eq, oversize_eq, ← hcfg, ← hrx]
  split_ifs
  · exact ⟨⟨hpar, hcfg, hasm, hrx, htx, hinputs⟩, rfl⟩
  · exact ⟨⟨hpar, hcfg, rfl, rfl, htx, hinputs⟩, rfl⟩
  · exact ⟨⟨hpar, hcfg, rfl, rfl, htx, hinputs⟩, rfl⟩
  · exact ⟨⟨hpar, hcfg, hasm, hrx, htx, hinputs⟩, rfl⟩
  · have taken : ∀ rx, SameButScratch (s.setRx rx) (t.setRx rx) := fun _ => ⟨hpar, hcfg, hasm, rfl, htx, hinputs⟩
    refine runFrame_indistinguishable ?_ ?_ (taken _) _ _
    · exact hs
    · exact ht

/-- So do POLL's entry and its scan. -/
theorem execPoll_indistinguishable (hs : s.fb.wf) (ht : t.fb.wf) (h : SameButScratch s t) :
    Indistinguishable (execPoll s) (execPoll t) := by
  have ⟨hpar, hcfg, hasm, hrx, htx, hinputs⟩ := h
  by_cases ho : s.cfg.opened = true
  · have ho' : t.cfg.opened = true := hcfg ▸ ho
    by_cases scans : hasStart s.cfg.mode = true ∧ s.asm = .idle
    · obtain ⟨start, idle⟩ := scans
      rw [execPoll_scan ho start idle, execPoll_scan ho' (hcfg ▸ start) (hasm ▸ idle), ← hrx]
      split_ifs
      · exact ⟨⟨hpar, hcfg, hasm, rfl, htx, hinputs⟩, rfl⟩
      · exact assembleFrame_indistinguishable (s := (s.setRx _).setAsm _) (t := (t.setRx _).setAsm _) hs ht
          ⟨hpar, hcfg, rfl, rfl, htx, hinputs⟩
    · rw [execPoll_no_scan ho scans, execPoll_no_scan ho' (hcfg ▸ hasm ▸ scans)]
      exact assembleFrame_indistinguishable hs ht h
  · have closed : s.cfg.opened = false := by simpa using ho
    rw [← exec_poll, ← exec_poll, exec_poll_of_closed closed, exec_poll_of_closed (hcfg ▸ closed)]
    exact indistinguishable_respond h _

/-! ### Every input -/

/-- The other commands read the parameters, the configuration and TX. -/
theorem exec_command_indistinguishable (h : SameButScratch s t) {i : Instr} (hf : i.format = .command) (hp : i ≠ .poll) :
    Indistinguishable (exec i s) (exec i t) := by
  have ⟨hpar, hcfg, hasm, hrx, htx, hinputs⟩ := h
  cases i with
  | openSession m mp =>
    simp only [exec, execOpenSession, ← hpar]
    exact ⟨⟨hpar, rfl, rfl, hrx, htx, hinputs⟩, rfl⟩
  | setBufferSize n =>
    simp only [exec, execSetBufferSize, State.writeBufCap, ← hcfg, ← hpar]
    split_ifs
    · exact indistinguishable_respond h _
    · exact ⟨⟨hpar, rfl, hasm, hrx, htx, hinputs⟩, rfl⟩
  | getBufferSize =>
    simp only [exec, execGetBufferSize, ← hcfg]
    split_ifs <;> exact indistinguishable_respond h _
  | checksum d => exact indistinguishable_respond h _
  | encode m i f p => exact indistinguishable_respond h _
  | decode m b => exact indistinguishable_respond h _
  | poll => exact absurd rfl hp
  | send i f p =>
    have room : t.txFree = s.txFree := by rw [State.txFree, State.txFree, hpar, htx]
    by_cases ho : s.cfg.opened = true
    · by_cases ha : Admitted s p.length
      · rw [exec_send_of_admitted ho ha, exec_send_of_admitted (hcfg ▸ ho) (by rwa [Admitted, ← hcfg]), room, ← hcfg]
        split_ifs
        · exact indistinguishable_respond h _
        · exact ⟨⟨hpar, hcfg, hasm, hrx, congrArg (· ++ _) htx, hinputs⟩, rfl⟩
      · rw [exec_send_of_not_admitted ho ha, exec_send_of_not_admitted (hcfg ▸ ho) (by rwa [Admitted, ← hcfg])]
        exact indistinguishable_respond h _
    · have closed : s.cfg.opened = false := by simpa using ho
      rw [exec_send_of_closed closed, exec_send_of_closed (hcfg ▸ closed)]
      exact indistinguishable_respond h _
  | reservedCommand c => exact indistinguishable_respond h _
  | frameFull | frameStartOnly | frameDelimCrc | frameNoCrc | sysNone | ping | pingReply | subscribe | unsubscribe
  | forceUnsubscribe | acknowledge | application | ackFlag => exact nomatch hf

theorem runCommand_indistinguishable (hs : s.fb.wf) (ht : t.fb.wf) (h : SameButScratch s t) (bytes : List Byte) :
    Indistinguishable (runCommand bytes s) (runCommand bytes t) := by
  rw [runCommand, runCommand]
  cases hd : decodeCommand bytes with
  | error e => exact indistinguishable_respond h _
  | ok i =>
    by_cases hp : i = .poll
    · rw [hp]
      exact execPoll_indistinguishable hs ht h
    · exact exec_command_indistinguishable h (decodeCommand_format hd) hp

/-- An input to states that differ in scratch only and show the same response. -/
theorem runInput_indistinguishable (hs : s.fb.wf) (ht : t.fb.wf) (h : SameButScratch s t) (hr : s.resp = t.resp)
    (i : Input) : Indistinguishable (runInput i s) (runInput i t) := by
  have ⟨hpar, hcfg, hasm, hrx, htx, hinputs⟩ := h
  cases i with
  | command bytes => exact runCommand_indistinguishable hs ht h bytes
  | rxArrive b =>
    simp only [runInput, rxArrive, State.rxAvail, ← hrx, ← hpar]
    split_ifs
    · exact ⟨⟨hpar, hcfg, hasm, rfl, htx, hinputs⟩, hr⟩
    · exact ⟨h, hr⟩
  | txDrain => exact ⟨⟨hpar, hcfg, hasm, hrx, congrArg List.tail htx, hinputs⟩, hr⟩
  | powerOn => exact ⟨⟨hpar, rfl, rfl, hrx, htx, hinputs⟩, hr⟩
  | foreignRead => rfl

end Sys2Proof.Machine

namespace Sys2Proof.Proofs

open Sys2Proof.Machine Sys2Proof.Claim

/-- Settles O53: both states take the same input, which clears the responses, and it runs alike in both
(`runInput_indistinguishable`); a POLL reads FB only where it has just written it. -/
theorem scratchIsNotObservable : Obligations.ScratchIsNotObservable := by
  intro s t hs ht h
  obtain ⟨hpar, hcfg, hasm, hrx, htx, hinputs⟩ := h
  cases hi : s.inputs with
  | nil =>
    rw [step_nil hi, step_nil (hinputs ▸ hi)]
    exact ⟨⟨hpar, hcfg, hasm, hrx, htx, hinputs⟩, rfl⟩
  | cons i rest =>
    rw [step_input hi, step_input (hinputs ▸ hi)]
    exact runInput_indistinguishable (s := taken s rest) (t := taken t rest) hs ht ⟨hpar, hcfg, hasm, hrx, htx, rfl⟩ rfl i

end Sys2Proof.Proofs
end

section
/-!
What a step writes: the registers and their writers (R21 to R25), the two queues (R61, R66), the response (R30).
-/

namespace Sys2Proof.Machine

open Sys2Proof.Claim

variable {s t : State}

/-! ### Fields that an operation leaves alone -/

@[simp] theorem taken_cfg (s : State) (rest : List Input) : (taken s rest).cfg = s.cfg := rfl
@[simp] theorem taken_asm (s : State) (rest : List Input) : (taken s rest).asm = s.asm := rfl

@[simp] theorem rxArrive_par (b : Byte) (s : State) : (rxArrive b s).par = s.par := by rw [rxArrive]; split <;> rfl
@[simp] theorem rxArrive_cfg (b : Byte) (s : State) : (rxArrive b s).cfg = s.cfg := by rw [rxArrive]; split <;> rfl
@[simp] theorem rxArrive_asm (b : Byte) (s : State) : (rxArrive b s).asm = s.asm := by rw [rxArrive]; split <;> rfl
@[simp] theorem rxArrive_tx (b : Byte) (s : State) : (rxArrive b s).tx = s.tx := by rw [rxArrive]; split <;> rfl
@[simp] theorem rxArrive_resp (b : Byte) (s : State) : (rxArrive b s).resp = s.resp := by rw [rxArrive]; split <;> rfl

/-- An arriving byte stands at the tail of RX, or is lost (R59). -/
theorem rxArrive_rx (b : Byte) (s : State) : (rxArrive b s).rx = s.rx ∨ (rxArrive b s).rx = s.rx ++ [b] := by
  rw [rxArrive]
  split
  · exact .inr rfl
  · exact .inl rfl

/-- POLL writes neither the parameters nor the configuration. -/
theorem execPoll_par_cfg (h : execPoll s = .next t) : t.par = s.par ∧ t.cfg = s.cfg := by
  obtain ⟨n, a, k, -, -, rfl, -⟩ | ⟨-, j, n, a, -, -, hrun⟩ := poll_inv h
  · exact ⟨rfl, rfl⟩
  · obtain ⟨-, _, _, _, _, _, _, _, _, rfl, -⟩ := runFrame_inv hrun
    simp

/-! ### The registers -/

/-- Who wrote the configuration and `asm` in a step from `s` to `t`: nobody, or the one input that may. -/
inductive RegisterWrite (s t : State) : Prop
  | unwritten (cfg : t.cfg = s.cfg) (asm : t.asm = s.asm)
  | poll (rest : List Input) (input : s.inputs = pollInput :: rest) (cfg : t.cfg = s.cfg)
  | setBufferSize (bs : List Byte) (n : Half) (rest : List Input) (input : s.inputs = .command bs :: rest)
      (decoded : decodeCommand bs = .ok (.setBufferSize n)) (opened : t.cfg.opened = s.cfg.opened)
      (mode : t.cfg.mode = s.cfg.mode) (maxPayload : t.cfg.maxPayload = s.cfg.maxPayload) (asm : t.asm = s.asm)
  | openSession (bs : List Byte) (m : Mode) (mp : Byte) (rest : List Input) (input : s.inputs = .command bs :: rest)
      (decoded : decodeCommand bs = .ok (.openSession m mp)) (asm : t.asm = .idle)
  | powerOn (rest : List Input) (input : s.inputs = .powerOn :: rest) (asm : t.asm = .idle)

/-- Every step is one of these, and none writes the parameters. -/
theorem step_registerWrite (h : step s = .next t) : t.par = s.par ∧ RegisterWrite s t := by
  obtain ⟨-, rfl⟩ | ⟨rest, hi, hp⟩ | ⟨rest, bs, e, -, -, rfl⟩ | ⟨rest, bs, i, hi, hd, hnp, he⟩ | ⟨rest, b, -, rfl⟩
    | ⟨rest, -, rfl⟩ | ⟨rest, hi, rfl⟩ := step_kinds h
  case inl => exact ⟨rfl, .unwritten rfl rfl⟩
  case inr.inl =>
    obtain ⟨hpar, hcfg⟩ := execPoll_par_cfg hp
    exact ⟨hpar, .poll rest hi hcfg⟩
  case inr.inr.inl => exact ⟨rfl, .unwritten rfl rfl⟩
  case inr.inr.inr.inl =>
    obtain ⟨c, a, w, r, e, -, hwrites, -⟩ := command_inv i (decodeCommand_format hd) hnp (taken s rest)
    cases e.symm.trans he
    refine ⟨rfl, ?_⟩
    obtain ⟨rfl, rfl⟩ | ⟨n, rfl, rfl, hopened, hmode, hmax, -⟩ | ⟨m, mp, rfl, rfl, -⟩ := hwrites
    · exact .unwritten (by simp) (by simp)
    · exact .setBufferSize bs n rest hi hd hopened hmode hmax rfl
    · exact .openSession bs m mp rest hi hd rfl
  case inr.inr.inr.inr.inl =>
    exact ⟨rxArrive_par b (taken s rest), .unwritten (rxArrive_cfg b (taken s rest)) (rxArrive_asm b (taken s rest))⟩
  case inr.inr.inr.inr.inr.inl => exact ⟨rfl, .unwritten rfl rfl⟩
  case inr.inr.inr.inr.inr.inr => exact ⟨rfl, .powerOn rest hi rfl⟩

/-! ### The queues -/

/-- A POLL takes bytes from the head of RX, and appends at most an Acknowledge and then a Ping-reply to TX (R66). -/
theorem execPoll_queues (h : execPoll s = .next t) :
    ∃ (n : Nat) (w b : List Byte), n ≤ s.rx.length ∧ t.rx = s.rx.drop n ∧ t.tx = s.tx ++ w ++ b
      ∧ (w = [] ∨ ∃ i : Half, w = ackFrame s.cfg.mode i) ∧ (b = [] ∨ b = pingReplyFrame s.cfg.mode) := by
  obtain ⟨n, a, k, hn, -, rfl, -⟩ | ⟨-, j, n, a, hn, -, hrun⟩ := poll_inv h
  · exact ⟨n, [], [], hn, rfl, by simp, .inl rfl, .inl rfl⟩
  · obtain ⟨-, _, _, w, b, _, _, _, _, rfl, hw, hb, -⟩ := runFrame_inv hrun
    exact ⟨j + n, w, b, hn, by simp, by simp, hw, hb⟩

theorem ackFrame_length (m : Mode) (i : Half) : (ackFrame m i).length = hl m + 2 := encodeMessage_length _ _ _ _

theorem pingReplyFrame_length (m : Mode) : (pingReplyFrame m).length = hl m + 1 := encodeMessage_length _ _ _ _

/-! ### The response -/

/-- The POLL and DECODE fields of a response with status `k`: ABSENT, or a message whose size counts its payload (R30). -/
def UniformFields (k : Status) (r : Message) : Prop :=
  (k ≠ .message → r = Message.absent) ∧ (k = .message → r.size.toNat = r.payload.length)

theorem uniformFields_absent {k : Status} (h : k ≠ .message) : UniformFields k Message.absent :=
  ⟨fun _ => rfl, fun e => absurd e h⟩

/-- POLL's response is a POLL response with uniform fields. -/
theorem execPoll_response (h : execPoll s = .next t) :
    ∃ k r a o, t.resp = some (.polled k r a o) ∧ UniformFields k r := by
  obtain ⟨n, a, k, -, hk, rfl, -⟩ | ⟨-, j, n, a, -, -, hrun⟩ := poll_inv h
  · exact ⟨k, _, _, _, rfl, uniformFields_absent hk⟩
  · obtain ⟨-, _, _, _, _, k, r, _, _, rfl, -, -, -, habsent, hsize⟩ := runFrame_inv hrun
    exact ⟨k, r, _, _, rfl, habsent, hsize⟩

/-- A step's response is none, a POLL's or a DECODE's with uniform fields, or one without these fields. -/
theorem step_response (h : step s = .next t) {k : Status} {r : Message}
    (hr : t.resp = some (.decoded k r) ∨ ∃ a o, t.resp = some (.polled k r a o)) : UniformFields k r := by
  obtain ⟨-, rfl⟩ | ⟨rest, -, hp⟩ | ⟨rest, bs, e, -, -, rfl⟩ | ⟨rest, bs, i, -, hd, hnp, he⟩ | ⟨rest, b, -, rfl⟩
    | ⟨rest, -, rfl⟩ | ⟨rest, -, rfl⟩ := step_kinds h
  case inr.inl =>
    obtain ⟨k', r', a', o', e, uniform⟩ := execPoll_response hp
    obtain hr | ⟨a, o, hr⟩ := hr
    · cases e.symm.trans hr
    · cases e.symm.trans hr
      exact uniform
  case inr.inr.inr.inl =>
    obtain ⟨c, a, w, r', e, -, -, notPolled, decoded⟩ := command_inv i (decodeCommand_format hd) hnp (taken s rest)
    cases e.symm.trans he
    obtain hr | ⟨a', o', hr⟩ := hr
    · exact decoded k r (Option.some.inj hr)
    · exact absurd (Option.some.inj hr) (notPolled _ _ _ _)
  case inr.inr.inr.inr.inl => simp at hr
  all_goals obtain hr | ⟨a, o, hr⟩ := hr <;> exact nomatch hr

end Sys2Proof.Machine

namespace Sys2Proof.Proofs

open Sys2Proof.Machine Sys2Proof.Claim

/-- Settles O54: the writers are the cases of `step_registerWrite`, and in each the other registers are equal. -/
theorem registerWriters : Obligations.RegisterWriters := by
  intro s t h
  obtain ⟨hpar, hwrite⟩ := step_registerWrite h
  refine ⟨hpar, ?_⟩
  cases hwrite with
  | unwritten cfg asm => simp_all
  | poll rest input cfg => exact ⟨by simp [cfg], by simp [cfg], fun _ _ => ⟨rest, input⟩, fun _ => .inr (.inr ⟨rest, input⟩)⟩
  | setBufferSize bs n rest input decoded opened mode maxPayload asm =>
    exact ⟨by simp [opened, mode, maxPayload], fun _ => .inr (.inr ⟨bs, n, rest, input, decoded⟩), by simp_all,
      by simp [asm]⟩
  | openSession bs m mp rest input decoded asm =>
    exact ⟨fun _ => .inr ⟨bs, m, mp, rest, input, decoded⟩, fun _ => .inr (.inl ⟨bs, m, mp, rest, input, decoded⟩),
      by simp [asm], fun _ => .inr (.inl ⟨bs, m, mp, rest, input, decoded⟩)⟩
  | powerOn rest input asm =>
    exact ⟨fun _ => .inl ⟨rest, input⟩, fun _ => .inl ⟨rest, input⟩, by simp [asm], fun _ => .inl ⟨rest, input⟩⟩

/-- Settles O55: by the kind of input; POLL's part is `execPoll_queues`, another command only appends to TX. -/
theorem queuesAreFifo : Obligations.QueuesAreFifo := by
  intro s t h
  obtain ⟨-, rfl⟩ | ⟨rest, hi, hp⟩ | ⟨rest, bs, e, -, -, rfl⟩ | ⟨rest, bs, i, -, hd, hnp, he⟩ | ⟨rest, b, hi, rfl⟩
    | ⟨rest, hi, rfl⟩ | ⟨rest, -, rfl⟩ := step_kinds h
  case inr.inl =>
    obtain ⟨n, w, b, -, hrx, htx, -⟩ := execPoll_queues hp
    exact ⟨.inl ⟨w ++ b, htx.trans (List.append_assoc ..)⟩, .inr (.inl ⟨n, rest, hrx, hi⟩)⟩
  case inr.inr.inr.inl =>
    obtain ⟨c, a, w, r, e, -⟩ := command_inv i (decodeCommand_format hd) hnp (taken s rest)
    cases e.symm.trans he
    exact ⟨.inl ⟨w, rfl⟩, .inl rfl⟩
  case inr.inr.inr.inr.inl =>
    exact ⟨.inl ⟨[], by simp⟩, (rxArrive_rx b (taken s rest)).imp id fun hrx => .inr ⟨b, rest, hrx, hi⟩⟩
  case inr.inr.inr.inr.inr.inl => exact ⟨.inr ⟨rfl, rest, hi⟩, .inl rfl⟩
  all_goals exact ⟨.inl ⟨[], (List.append_nil _).symm⟩, .inl rfl⟩

/-- Settles O56: `step_response`; ABSENT is the message whose fields are 0 and empty. -/
theorem responsesAreUniform : Obligations.ResponsesAreUniform :=
  fun _ _ _ _ h hr => step_response h hr

/-- Settles O34: `execPoll_queues`, the replies' lengths being their frames' (R161, R162). -/
theorem pollIsBounded : Obligations.PollIsBounded := by
  intro s t h
  obtain ⟨n, w, b, hn, hrx, htx, hw, hb⟩ := execPoll_queues h
  refine ⟨n, w, b, hn, hrx, htx, hw, hb, ?ack, ?reply⟩
  case ack =>
    obtain rfl | ⟨i, rfl⟩ := hw
    · exact Nat.zero_le _
    · exact (ackFrame_length _ _).le
  case reply =>
    obtain rfl | rfl := hb
    · exact Nat.zero_le _
    · exact (pingReplyFrame_length _).le

end Sys2Proof.Proofs
end

section
/-!
The checksum as a CRC (R100, R103, R104): the loop's step is eight bits of the shift register, which is linear and loses
nothing, so neither does the checksum.
-/

namespace Sys2Proof.Machine

open Sys2Proof.Claim

/-! ### One bit of the shift register -/

/-- The register is linear over XOR: the generator is added once for each operand whose top bit shifts out. -/
theorem crcBit_xor (x y : Half) : crcBit (x ^^^ y) = crcBit x ^^^ crcBit y := by
  simp only [crcBit, BitVec.msb_xor, BitVec.shiftLeft_xor_distrib]
  cases x.msb <;> cases y.msb
  case false.false => rfl
  case false.true => simp [BitVec.xor_assoc]
  case true.false => simp; ac_rfl
  case true.true => simp [BitVec.xor_assoc]

/-- Nothing is lost: the generator's bit 0 shows whether the top bit shifted out. -/
theorem eq_zero_of_crcBit_eq_zero {z : Half} (h : crcBit z = 0#16) : z = 0#16 := by
  rw [crcBit] at h
  split at h
  · have bit0 := congrArg (·.getLsbD 0) h
    simp at bit0
  · rename_i top
    have small := BitVec.msb_eq_false_iff_two_mul_lt.1 (by simpa using top)
    bv_omega

theorem crcBit_injective : Function.Injective crcBit := by
  intro x y h
  have diff : crcBit (x ^^^ y) = 0#16 := by rw [crcBit_xor, h, BitVec.xor_self]
  exact BitVec.xor_eq_zero_iff.1 (eq_zero_of_crcBit_eq_zero diff)

/-! ### One byte -/

theorem crcByte_eq_iterate (acc : Half) (b : Byte) : crcByte acc b = crcBit^[8] (acc ^^^ (b.zeroExtend 16 <<< 8)) := rfl

theorem crcBit_iterate_xor (n : Nat) (x y : Half) : crcBit^[n] (x ^^^ y) = crcBit^[n] x ^^^ crcBit^[n] y := by
  induction n generalizing x y with
  | zero => rfl
  | succ n ih => rw [Function.iterate_succ_apply, crcBit_xor, ih]; rfl

/-- From the low half of the register eight bits only shift: no top bit is set before they are done. -/
theorem crcBit_iterate_low (x : Byte) : crcBit^[8] (x.zeroExtend 16) = x.zeroExtend 16 <<< 8 := by
  revert x; decide +kernel

/-- From the high half they are the folding of R100's loop. -/
theorem crcBit_iterate_high (x : Byte) : crcBit^[8] (x.zeroExtend 16 <<< 8) = checksumStep 0#16 x := by
  revert x; decide +kernel

/-- The loop's step keeps the low half of the accumulator apart from what it folds. -/
theorem checksumStep_eq (acc : Half) (d : Byte) :
    checksumStep acc d = (acc <<< 8) ^^^ checksumStep 0#16 (hiByte acc ^^^ d) := by
  simp [checksumStep, hiByte, BitVec.xor_assoc]

/-- The register after the byte has entered, as its two halves. -/
theorem entered_eq_halves (acc : Half) (b : Byte) :
    acc ^^^ (b.zeroExtend 16 <<< 8) = ((hiByte acc ^^^ b).zeroExtend 16 <<< 8) ^^^ (loByte acc).zeroExtend 16 := by
  ext i hi
  by_cases low : i < 8
  · simp [hiByte, loByte, low, BitVec.getLsbD_eq_getElem hi]
  · have high : i - 8 < 8 := by omega
    have back : 8 + (i - 8) = i := by omega
    simp [hiByte, loByte, low, high, back, BitVec.getLsbD_eq_getElem hi]

theorem loByte_shift (acc : Half) : (loByte acc).zeroExtend 16 <<< 8 = acc <<< 8 := by
  ext i hi
  by_cases low : i < 8
  · simp [low]
  · have high : i - 8 < 8 := by omega
    simp [loByte, low, high, BitVec.getLsbD_eq_getElem (show i - 8 < 16 by omega)]

/-- R100's step is one byte of the CRC. -/
theorem checksumStep_eq_crcByte (acc : Half) (b : Byte) : checksumStep acc b = crcByte acc b := by
  rw [crcByte_eq_iterate, entered_eq_halves, crcBit_iterate_xor, crcBit_iterate_high, crcBit_iterate_low, loByte_shift,
    checksumStep_eq, BitVec.xor_comm]

theorem checksumFrom_eq_foldl (acc : Half) (d : List Byte) : checksumFrom acc d = d.foldl crcByte acc := by
  induction d generalizing acc with
  | nil => rfl
  | cons b bs ih => rw [checksumFrom, checksumStep_eq_crcByte, ih]; rfl

/-! ### What the checksum tells apart -/

/-- Two accumulators that differ are told apart after any bytes. -/
theorem checksumFrom_injective (d : List Byte) : Function.Injective fun acc => checksumFrom acc d := by
  induction d with
  | nil => exact fun _ _ h => h
  | cons b bs ih =>
    intro x y h
    have step : checksumStep x b = checksumStep y b := ih h
    rw [checksumStep_eq_crcByte, checksumStep_eq_crcByte] at step
    exact (BitVec.xor_left_inj _).1 (crcBit_injective.iterate 8 step)

/-- Two bytes that differ are told apart in the accumulator. -/
theorem checksumStep_injective (acc : Half) : Function.Injective (checksumStep acc) := by
  intro a b h
  rw [checksumStep_eq_crcByte, checksumStep_eq_crcByte] at h
  have entered : a.zeroExtend 16 <<< 8 = b.zeroExtend 16 <<< 8 := (BitVec.xor_right_inj _).1 (crcBit_injective.iterate 8 h)
  have high := congrArg hiByte entered
  bv_omega

/-- Payloads that differ in one byte have different checksums. -/
theorem checksum_ne_of_byte_ne (pre post : List Byte) {a b : Byte} (h : a ≠ b) :
    checksum (pre ++ a :: post) ≠ checksum (pre ++ b :: post) := by
  intro e
  rw [checksum, checksum, checksumFrom_append, checksumFrom_append] at e
  exact h (checksumStep_injective _ (checksumFrom_injective post e))

/-- A flipped bit changes its byte. -/
theorem ne_flipBit (b : Byte) {k : Nat} (hk : k < 8) : b ≠ b ^^^ (1#8 <<< k) := by
  intro e
  have bit := congrArg (·.getLsbD k) e
  simp [hk] at bit

/-! ### Decoding a frame with a checksum of its own or another's -/

/-- Decode of a frame's bytes, whatever follows it: the CRC alone decides (R115). -/
theorem decodeMessage_frameBytes (m : Mode) (f : Byte) (i c : Half) {p : List Byte} (h : fitsU8 p) (rest : List Byte) :
    decodeMessage m (frameBytes m f i c p ++ rest)
      = if hasCrc m = true ∧ checksum p ≠ c then (.corruptFrame, Message.absent)
        else (.message, { dataId := i, flags := f, size := len8 p, payload := p }) := by
  obtain ⟨hlen, hflags, hid, hcrc, -, -⟩ := frameBytes_fields m f i c p rest
  have whole : hl m + (byteAt (frameBytes m f i c p ++ rest) (offLen m)).toNat ≤ (frameBytes m f i c p ++ rest).length := by
    rw [hlen, len8_toNat h, List.length_append, frameBytes_length]
    omega
  have payload : (p ++ rest).take (len8 p).toNat = p := by rw [len8_toNat h, List.take_left]
  rw [decodeMessage_of_whole_frame whole, hlen, hflags, hid, frameBytes_drop_hl, payload]
  by_cases crc : hasCrc m = true
  · rw [hcrc crc]
  · simp [crc]

/-- The frame alone. -/
theorem decodeMessage_frameBytes_alone (m : Mode) (f : Byte) (i c : Half) {p : List Byte} (h : fitsU8 p) :
    decodeMessage m (frameBytes m f i c p)
      = if hasCrc m = true ∧ checksum p ≠ c then (.corruptFrame, Message.absent)
        else (.message, { dataId := i, flags := f, size := len8 p, payload := p }) := by
  simpa only [List.append_nil] using decodeMessage_frameBytes m f i c h []

end Sys2Proof.Machine

namespace Sys2Proof.Proofs

open Sys2Proof.Machine Sys2Proof.Claim

/-- Settles O9: byte by byte, R100's step is eight bits of the shift register (`checksumStep_eq_crcByte`). -/
theorem checksumIsTheShiftRegisterCrc : Obligations.ChecksumIsTheShiftRegisterCrc :=
  checksumFrom_eq_foldl 0xFFFF#16

/-- Settles O13: the frame carries the checksum of its own payload, so Decode's CRC test holds. -/
theorem decodeMessageOfEncodeMessage : Obligations.DecodeMessageOfEncodeMessage := by
  intro m i f p rest hp
  rw [encodeMessage, decodeMessage_frameBytes m f i _ hp rest, if_neg fun ⟨_, bad⟩ => bad rfl]

/-- Settles O8: the shift register loses nothing, so one changed byte changes the checksum, and then Decode's CRC test
fails. -/
theorem singleBitFlipIsDetected : Obligations.SingleBitFlipIsDetected := by
  intro pre post b k hk p q
  have differ : checksum p ≠ checksum q := checksum_ne_of_byte_ne pre post (ne_flipBit b hk)
  refine ⟨differ, fun m flags dataId crc hp => ?_⟩
  have hq : fitsU8 q := by simpa [p, q, fitsU8] using hp
  rw [decodeMessage_frameBytes_alone m flags dataId _ hq, if_pos ⟨crc, differ.symm⟩]

end Sys2Proof.Proofs
end

section
/-!
The frame instructions and the POLL that runs them (R27, R133, R138, R139): what each leaves, where the frame stands in RX,
and the bytes the scan discards before it.
-/

namespace Sys2Proof.Machine

open Sys2Proof.Claim

variable {s : State}

/-! ### A consumed frame -/

/-- A frame that FB has room for goes on in the state that its fields decide (R138, R139). -/
theorem runFrame_frameBytes (hw : s.fb.wf) (m : Mode) (f : Byte) (i c : Half) {p : List Byte} (hp : fitsU8 p)
    (room : hl m + p.length ≤ s.par.bufMax.toNat) :
    runFrame m (frameBytes m f i c p) s = .next (frameResult m f i c p s) := by
  rw [runFrame_next hw (by rwa [frameBytes_length]), decodeMessage_frameBytes_alone m f i c hp, frameResult]
  by_cases bad : hasCrc m = true ∧ checksum p ≠ c
  · simp only [if_pos bad]; rfl
  · simp only [if_neg bad]; rfl

/-- Consuming a frame writes `asm`, so what it was before does not matter. -/
theorem runFrame_setAsm (m : Mode) (bytes : List Byte) (s : State) (a : Asm) :
    runFrame m bytes (s.setAsm a) = runFrame m bytes s := by
  by_cases hb : bytes.length ≤ s.par.bufMax.toNat
  · rw [runFrame, runFrame, fbWrite_eq (s := s.setAsm a) hb, fbWrite_eq hb]; rfl
  · rw [runFrame, runFrame, fbWrite, fbWrite, setAsm_par, if_neg hb, if_neg hb, andThen_fault]

/-! ### A frame at the head of RX -/

/-- The payload length of an admitted frame fits the length byte (R136). -/
theorem fitsU8_of_admitted {p : List Byte} (h : Admitted s p.length) : fitsU8 p := by
  obtain ⟨-, hmax⟩ := h
  have := s.cfg.maxPayload.isLt
  simp only [fitsU8]
  omega

section Head

variable {f : Byte} {i c : Half} {p rest : List Byte} (hrx : s.rx = frameBytes s.cfg.mode f i c p ++ rest)
include hrx

theorem aligned_of_frame (ho : s.cfg.opened = true) : Aligned s := by
  refine ⟨ho, fun hs => ?_⟩
  obtain ⟨tail, e⟩ := frameBytes_head hs f i c p
  rw [hrx, e]; rfl

theorem headerOk_of_frame : HeaderOk s := by
  obtain ⟨-, -, -, -, hend, -⟩ := frameBytes_fields s.cfg.mode f i c p rest
  refine ⟨?_, fun he => ?_⟩
  · rw [hrx, List.length_append, frameBytes_length]; omega
  · rw [hrx]; exact hend he

theorem headLen_of_frame (hp : fitsU8 p) : headLen s = p.length := by
  obtain ⟨hlen, -⟩ := frameBytes_fields s.cfg.mode f i c p rest
  rw [headLen, hrx, hlen, len8_toNat hp]

/-- POLL takes exactly the frame from RX and runs it (R138). -/
theorem exec_poll_of_frame (ho : s.cfg.opened = true) (hadm : Admitted s p.length) :
    exec .poll s = runFrame s.cfg.mode (frameBytes s.cfg.mode f i c p) (s.setRx rest) := by
  have hlen := headLen_of_frame hrx (fitsU8_of_admitted hadm)
  have size : headLen s + hl s.cfg.mode = (frameBytes s.cfg.mode f i c p).length := by
    rw [hlen, frameBytes_length, Nat.add_comm]
  have whole : headLen s + hl s.cfg.mode ≤ s.rx.length := by rw [size, hrx, List.length_append]; omega
  have hadm' : Admitted s (headLen s) := by rwa [hlen]
  obtain ⟨a, e⟩ := started_eq_setAsm s
  rw [exec_poll_of_aligned (aligned_of_frame hrx ho),
    assembleFrame_of_whole_frame (headerOk_started.2 (headerOk_of_frame hrx)) (admitted_started.2 hadm')
      (by simpa using whole),
    started_rx, started_cfg, headLen_started, size, hrx, List.take_left, List.drop_left, e]
  exact runFrame_setAsm _ _ (s.setRx rest) a

end Head

/-! ### Before the frame -/

/-- In a start-byte Mode, a POLL of an aligned state does the same from Idle and from Syncing: either way step 2 leaves
Syncing (R27). -/
theorem exec_poll_setAsm_of_aligned (h : Aligned s) (hs : hasStart s.cfg.mode = true) (a : Asm) :
    exec .poll (s.setAsm a) = exec .poll s := by
  have start : started (s.setAsm a) = started s := by rw [started, started, setAsm_cfg, if_pos hs, if_pos hs]; rfl
  rw [exec_poll_of_aligned h, exec_poll_of_aligned (s := s.setAsm a) h, start]

/-- POLL is POLL past the bytes its scan discards (R131, R133). -/
theorem exec_poll_of_junk {junk rx : List Byte} (ho : s.cfg.opened = true) (hj : Junk s junk) (hrx : s.rx = junk ++ rx) :
    exec .poll s = exec .poll (s.setRx rx) := by
  obtain rfl | ⟨hs, hi, hjunk⟩ := hj
  · rw [List.nil_append] at hrx
    rw [← hrx, setRx_self]
  · rw [exec_poll, exec_poll, execPoll_scan ho hs hi, execPoll_scan (s := s.setRx rx) ho hs hi, hrx, scanned_append hjunk]
    rfl

/-- POLL runs the admitted frame that stands behind bytes its scan discards. -/
theorem exec_poll_of_junk_frame {junk rest : List Byte} {f : Byte} {i c : Half} {p : List Byte} (ho : s.cfg.opened = true)
    (hj : Junk s junk) (hadm : Admitted s p.length) (hrx : s.rx = junk ++ frameBytes s.cfg.mode f i c p ++ rest) :
    exec .poll s = runFrame s.cfg.mode (frameBytes s.cfg.mode f i c p) (s.setRx rest) := by
  rw [List.append_assoc] at hrx
  rw [exec_poll_of_junk ho hj hrx]
  exact exec_poll_of_frame (s := s.setRx (frameBytes s.cfg.mode f i c p ++ rest)) rfl ho hadm

/-- Where FB holds every admitted frame, the message's fields decide what that POLL leaves. -/
theorem exec_poll_of_message {junk rest : List Byte} {f : Byte} {i : Half} {p : List Byte} (ho : s.cfg.opened = true)
    (hw : s.fb.wf) (hj : Junk s junk) (hadm : Admitted s p.length) (hcap : s.cfg.bufCap.toNat ≤ s.par.bufMax.toNat)
    (hrx : s.rx = junk ++ encodeMessage s.cfg.mode i f p ++ rest) :
    exec .poll s = .next (frameResult s.cfg.mode f i (checksum p) p (s.setRx rest)) := by
  have room : hl s.cfg.mode + p.length ≤ s.par.bufMax.toNat := by
    obtain ⟨hfits, -⟩ := hadm
    omega
  rw [exec_poll_of_junk_frame ho hj hadm hrx]
  exact runFrame_frameBytes (s := s.setRx rest) hw _ f i _ (fitsU8_of_admitted hadm) room

/-! ### The result of a message -/

/-- The state in which a consumed message is judged (R138): FB holds its frame, the assembler is Idle. -/
def consumed (m : Mode) (i : Half) (f : Byte) (p : List Byte) (s : State) : State :=
  (s.setFb (Memory.writeBytes s.fb 0 (encodeMessage m i f p))).setAsm .idle

/-- DataId 0 ends the POLL (R139). -/
theorem frameResult_of_zero (m : Mode) (f : Byte) (p : List Byte) (s : State) :
    frameResult m f 0x0000#16 (checksum p) p s
      = (consumed m 0x0000#16 f p s).respond (pollSays .noMessage) := by
  simp only [frameResult, if_neg fun h : hasCrc m = true ∧ checksum p ≠ checksum p => h.2 rfl]; rfl

/-- Any other message is dispatched. -/
theorem frameResult_of_ne_zero (m : Mode) (f : Byte) {i : Half} (h0 : i ≠ 0x0000#16) (p : List Byte) (s : State) :
    frameResult m f i (checksum p) p s
      = dispatchResult { dataId := i, flags := f, size := len8 p, payload := p } (consumed m i f p s) := by
  simp only [frameResult, if_neg fun h : hasCrc m = true ∧ checksum p ≠ checksum p => h.2 rfl, if_neg h0]; rfl

@[simp] theorem dispatchResult_rx (r : Message) (s : State) : (dispatchResult r s).rx = s.rx := by
  simp only [dispatchResult]; split_ifs <;> rfl

@[simp] theorem dispatchResult_asm (r : Message) (s : State) : (dispatchResult r s).asm = s.asm := by
  simp only [dispatchResult]; split_ifs <;> rfl

theorem dispatchResult_of_ping {r : Message} (h : r.dataId = 0x0001#16) (s : State) :
    (dispatchResult r s).tx = (replyTo s.par.txCap.toNat (afterAck r s).2 (pingReplyFrame s.cfg.mode)).2
      ∧ (dispatchResult r s).resp = some (.polled .noMessage Message.absent (afterAck r s).1
          (replyTo s.par.txCap.toNat (afterAck r s).2 (pingReplyFrame s.cfg.mode)).1) := by
  simp only [dispatchResult, if_pos h]; exact ⟨rfl, rfl⟩

theorem dispatchResult_of_silent {r : Message} (h2 : 2 ≤ r.dataId.toNat) (h6 : r.dataId.toNat ≤ 6) (s : State) :
    (dispatchResult r s).tx = (afterAck r s).2
      ∧ (dispatchResult r s).resp = some (.polled .noMessage Message.absent (afterAck r s).1 .none) := by
  have notPing : r.dataId ≠ 0x0001#16 := fun e => by rw [e] at h2; exact absurd h2 (by decide)
  simp only [dispatchResult, if_neg notPing, if_pos h6]; exact ⟨rfl, rfl⟩

theorem dispatchResult_of_application {r : Message} (h7 : 7 ≤ r.dataId.toNat) (s : State) :
    (dispatchResult r s).tx = (afterAck r s).2
      ∧ (dispatchResult r s).resp = some (.polled .message r (afterAck r s).1 .none) := by
  have notPing : r.dataId ≠ 0x0001#16 := fun e => by rw [e] at h7; exact absurd h7 (by decide)
  simp only [dispatchResult, if_neg notPing, if_neg (Nat.not_le.2 h7)]; exact ⟨rfl, rfl⟩

/-- With the acknowledge flag set, the outcome is the Acknowledge's (R161). -/
theorem afterAck_of_requested {r : Message} (h : r.flags.getLsbD 0 = true) (s : State) :
    afterAck r s = replyTo s.par.txCap.toNat s.tx (ackFrame s.cfg.mode r.dataId) :=
  if_pos h

/-- A reply only appends to TX (R169). -/
theorem replyTo_appends (cap : Nat) (tx f : List Byte) : ∃ w, (replyTo cap tx f).2 = tx ++ w := by
  rw [replyTo]
  split
  · exact ⟨f, rfl⟩
  · exact ⟨[], (List.append_nil tx).symm⟩

/-! ### FB -/

/-- A frame instruction that goes on has stored its bytes in FB from address 0 (R138). -/
theorem runFrame_fb {m : Mode} {bytes : List Byte} {t : State} (h : runFrame m bytes s = .next t) :
    t.fb = Memory.writeBytes s.fb 0 bytes := by
  obtain ⟨-, _, _, _, _, _, _, _, _, rfl, -⟩ := runFrame_inv h
  simp

/-- Every other instruction but POLL leaves FB (R28). -/
theorem exec_keeps_fb {i : Instr} {t : State} (hf : ∀ m, i.format ≠ .frame m) (hp : i ≠ .poll) (h : exec i s = .next t) :
    t.fb = s.fb := by
  by_cases command : i.format = .command
  · obtain ⟨c, a, w, r, e, -⟩ := command_inv i command hp s
    cases e.symm.trans h
    simp
  · cases i with
    | openSession | setBufferSize | getBufferSize | checksum | encode | decode | poll | send | reservedCommand =>
      exact absurd rfl command
    | frameFull | frameStartOnly | frameDelimCrc | frameNoCrc => exact absurd rfl (hf _)
    | sysNone | pingReply | subscribe | unsubscribe | forceUnsubscribe | acknowledge | application => cases h; rfl
    | ping => cases (execPing_replyTo s).symm.trans h; rfl
    | ackFlag x => cases (execAckFlag_replyTo x s).symm.trans h; rfl

end Sys2Proof.Machine

namespace Sys2Proof.Proofs

open Sys2Proof.Machine Sys2Proof.Claim

/-- Settles O27: POLL skips the junk and runs the frame's bytes, which is what the frame's row does. -/
theorem pollRunsTheFrameInstruction : Obligations.PollRunsTheFrameInstruction := by
  intro s junk rest f i c p ho hj hadm hrx
  rw [encode_frameInstr] at hrx
  rw [exec_frameInstr, exec_poll_of_junk_frame ho hj hadm hrx]

/-- Settles O28: each row is `runFrame_frameBytes` in its Mode, whose header length is the constant of the clause. -/
theorem framesComplete : Obligations.FramesComplete :=
  ⟨fun f i c _ _ hp hw room => runFrame_frameBytes hw .full f i c hp room,
    fun f i c _ _ hp hw room => runFrame_frameBytes hw .startOnly f i c hp room,
    fun f i c _ _ hp hw room => runFrame_frameBytes hw .delimCrc f i c hp room,
    fun f i _ _ hp hw room => runFrame_frameBytes hw .noCrc f i 0#16 hp room⟩

/-- Settles O29: a frame's write is the run of bytes from address 0 (`Memory.read_writeBytes`); no other instruction but POLL
writes FB. -/
theorem frameBufferWrites : Obligations.FrameBufferWrites := by
  refine ⟨fun m f i c p s t _ hw h a => ?frame, fun i s t => exec_keeps_fb⟩
  rw [exec_frameInstr] at h
  rw [encode_frameInstr, runFrame_fb h, Memory.read_writeBytes hw, Nat.zero_add]
  exact ⟨fun below => if_pos ⟨Nat.zero_le a, below⟩, fun above => if_neg fun ⟨_, below⟩ => Nat.not_lt.2 above below⟩

/-- Settles O30: by R26 the state is aligned in a start-byte Mode, where POLL does not depend on `asm`. -/
theorem syncingPollIsIdlePoll : Obligations.SyncingPollIsIdlePoll := by
  intro s hsync ha
  obtain ⟨ho, hs, hhead⟩ := hsync ha
  exact (exec_poll_setAsm_of_aligned ⟨ho, fun _ => hhead⟩ hs .idle).symm

/-- Settles O32: `exec_poll_of_message`, the junk being what the scan of an Idle start-byte Mode discards. -/
theorem resyncDiscardsExactlyTheJunk : Obligations.ResyncDiscardsExactlyTheJunk :=
  fun _ _ _ _ _ _ ho hs hi hw hjunk hadm hcap hrx => exec_poll_of_message ho hw (.inr ⟨hs, hi, hjunk⟩) hadm hcap hrx

/-- Settles O43: the POLL dispatches the message, and dataId 1 is the Ping's. -/
theorem pingIsTransparent : Obligations.PingIsTransparent := by
  intro s f p rest ho hw hadm hcap hrx a o
  refine ⟨_, exec_poll_of_message ho hw (.inl rfl) hadm hcap hrx, ?_⟩
  rw [frameResult_of_ne_zero _ _ (by decide)]
  obtain ⟨htx, hresp⟩ := dispatchResult_of_ping (r := ⟨0x0001#16, f, len8 p, p⟩) rfl
    (consumed s.cfg.mode 0x0001#16 f p (s.setRx rest))
  exact ⟨hresp, htx, dispatchResult_rx _ _, dispatchResult_asm _ _⟩

/-- Settles O44: by the dataId's range; from 1 up the message is dispatched and its flags ask for the Acknowledge, dataId 0
is not dispatched. -/
theorem ackRequestIsAnswered : Obligations.AckRequestIsAnswered := by
  intro s i f p rest ho hw hadm hcap hack hrx o
  refine ⟨_, exec_poll_of_message ho hw (.inl rfl) hadm hcap hrx, ?_⟩
  by_cases h0 : i = 0x0000#16
  · subst h0
    rw [frameResult_of_zero]
    exact ⟨rfl, fun _ => ⟨rfl, rfl⟩, nofun, nofun, nofun⟩
  · have acked : afterAck ⟨i, f, len8 p, p⟩ (consumed s.cfg.mode i f p (s.setRx rest)) = o := afterAck_of_requested hack _
    rw [frameResult_of_ne_zero _ _ h0, ← acked]
    refine ⟨dispatchResult_rx _ _, fun e => absurd e h0, fun h7 => ?application, fun h2 h6 => ?silent, fun h1 => ?ping⟩
    case application => exact dispatchResult_of_application h7 _
    case silent => exact dispatchResult_of_silent h2 h6 _
    case ping =>
      obtain ⟨htx, hresp⟩ := dispatchResult_of_ping (r := ⟨i, f, len8 p, p⟩) h1 (consumed s.cfg.mode i f p (s.setRx rest))
      obtain ⟨w, happ⟩ := replyTo_appends s.par.txCap.toNat
        (afterAck ⟨i, f, len8 p, p⟩ (consumed s.cfg.mode i f p (s.setRx rest))).2 (pingReplyFrame s.cfg.mode)
      exact ⟨w, htx.trans happ, _, hresp⟩

end Sys2Proof.Proofs
end

section
/-!
The dispatcher's rows as instructions of their own (R76 to R78, R160): the message's flags and dataId decode to the rows that
Dispatch runs.
-/

namespace Sys2Proof.Machine

/-- A flags byte decodes to ACK_FLAG with its upper bits, where bit 0 is set (R78). -/
theorem decodeFlags_eq_ok {f : Byte} {x : Instr} (h : decodeFlags f = .ok x) :
    ackRequested f = true ∧ x = .ackFlag (flagsHigh f) := by
  by_cases hack : ackRequested f = true
  · exact ⟨hack, (Except.ok.inj ((decodeFlags_of_requested hack).symm.trans h)).symm⟩
  · rw [decodeFlags, if_neg hack] at h
    exact nomatch h

/-- It does not decode only where bit 0 is clear. -/
theorem not_ackRequested_of_decodeFlags_error {f : Byte} {e : DecodeError} (h : decodeFlags f = .error e) :
    ¬ ackRequested f = true :=
  fun hack => nomatch (decodeFlags_of_requested hack).symm.trans h

/-- ACK_FLAG leaves the message for the dataId action. -/
theorem andThen_execAckFlag_dispatchAction (x : BitVec 7) (s : State) :
    andThen (execAckFlag x s) dispatchAction = andThen (exec (.ackFlag x) s) (exec (decodeDataId s.msg.dataId)) := by
  rw [exec, execAckFlag_replyTo, andThen_next, andThen_next, dispatchAction_eq]; rfl

end Sys2Proof.Machine

namespace Sys2Proof.Proofs

open Sys2Proof.Machine Sys2Proof.Claim

/-- Settles O42: Dispatch branches on the bit that decides whether the flags decode, and its dataId action is the decoder's
(`dispatchAction_eq`). -/
theorem dispatchRunsTheDecodedActions : Obligations.DispatchRunsTheDecodedActions := by
  intro r s
  refine ⟨fun x hx => ?acknowledged, fun e he => ?unacknowledged⟩
  case acknowledged =>
    obtain ⟨hack, rfl⟩ := decodeFlags_eq_ok hx
    exact (if_pos hack).trans (andThen_execAckFlag_dispatchAction _ _)
  case unacknowledged => exact (if_neg (not_ackRequested_of_decodeFlags_error he)).trans (dispatchAction_eq _)

/-- Settles O36: ACK_FLAG is SendReply with the Acknowledge (`execAckFlag_replyTo`), whatever flags bits 7:1. -/
theorem ackFlagCompletes : Obligations.AckFlagCompletes := execAckFlag_replyTo

/-- Settles O37: PING is SendReply with the Ping-reply (`execPing_replyTo`). -/
theorem pingCompletes : Obligations.PingCompletes := execPing_replyTo

/-- Settles O38: each of the five rows is the one suppression. -/
theorem silentSystemMessagesComplete : Obligations.SilentSystemMessagesComplete := by
  intro i s hi
  simp only [List.mem_cons, List.not_mem_nil, or_false] at hi
  obtain rfl | rfl | rfl | rfl | rfl := hi <;> rfl

/-- Settles O39: the row's meaning, with no condition on the state. -/
theorem applicationCompletes : Obligations.ApplicationCompletes := fun _ _ => rfl

/-- Settles O40: the row's meaning is POLL's raise. -/
theorem sysNoneCompletes : Obligations.SysNoneCompletes := raisePoll_eq .noMessage

end Sys2Proof.Proofs
end

section
/-!
Commands at the step (R81, R184, R206), the refused configuration (R57), and the words and codes written out in the spec.
-/

namespace Sys2Proof.Machine

open Sys2Proof.Claim

/-- A pending command that decodes runs in the state it was taken in (R184). -/
theorem step_command {s : State} {rest : List Input} {bytes : List Byte} {i : Instr} (hi : s.inputs = .command bytes :: rest)
    (hd : decodeCommand bytes = .ok i) : step s = exec i (taken s rest) := by
  rw [step_input hi, runInput, runCommand, hd]; rfl

/-- A pending POLL runs. -/
theorem step_poll {s : State} {rest : List Input} (hi : s.inputs = pollInput :: rest) : step s = exec .poll (taken s rest) :=
  step_command hi rfl

end Sys2Proof.Machine

namespace Sys2Proof.Proofs

open Sys2Proof.Machine Sys2Proof.Claim

/-- Settles O4: `step_command`. -/
theorem stepRunsTheDecodedCommand : Obligations.StepRunsTheDecodedCommand := fun _ _ _ _ => step_command

/-- Settles O18: each command decodes to its instruction, which answers NOT_OPEN in the state the command was taken in. -/
theorem beforeOpenAnswersNotOpen : Obligations.BeforeOpenAnswersNotOpen := by
  intro s rest closed
  have closed' : (taken s rest).cfg.opened = false := closed
  refine ⟨fun hi => ?poll, fun hi => ⟨.plain .notOpen, rfl, ?get⟩, fun n1 n0 hi => ?set, fun i f p hp hi => ?send⟩
  case poll => exact (step_poll hi).trans (exec_poll_of_closed closed')
  case get => exact (step_command hi rfl).trans (exec_getBufferSize_of_closed closed')
  case set => exact (step_command hi rfl).trans (exec_setBufferSize_of_closed closed' (be16 n1 n0))
  case send =>
    have decoded := (decodeCommand_sendCode _).trans (decodeSend_operands i f hp)
    exact (step_command hi decoded).trans (exec_send_of_closed closed')

/-- Settles O6: the row's meaning, whatever the code. -/
theorem reservedCommandCompletes : Obligations.ReservedCommandCompletes := fun _ s => raiseStatus_eq .badCommand s

/-- Settles O47: the input runs as the refusal. -/
theorem foreignReaderIsRefused : Obligations.ForeignReaderIsRefused := fun _ _ hi => step_input hi

/-- Settles O3: the decoders run on the nine words. -/
theorem writtenOutWordsDecode : Obligations.WrittenOutWordsDecode := by
  unfold Obligations.WrittenOutWordsDecode
  decide

/-- Settles O57: the codes of the two tables. -/
theorem statusAndReplyCodes : Obligations.StatusAndReplyCodes := by
  unfold Obligations.StatusAndReplyCodes
  decide

end Sys2Proof.Proofs
end

section
/-!
A header at the head of RX while bytes arrive behind it, and the stalled frame (R241).
-/

namespace Sys2Proof.Machine

open Sys2Proof.Claim

variable {s : State}

/-! ### Bytes behind the header -/

theorem byteAt_append_left {xs : List Byte} {k : Nat} (h : k < xs.length) (ys : List Byte) :
    byteAt (xs ++ ys) k = byteAt xs k :=
  List.getD_append _ _ _ _ h

theorem byteAt_append_right {xs : List Byte} {k : Nat} (h : xs.length ≤ k) (ys : List Byte) :
    byteAt (xs ++ ys) k = byteAt ys (k - xs.length) :=
  List.getD_append_right _ _ _ _ h

/-- The length byte is in the header. -/
theorem headLen_append (h : hl s.cfg.mode ≤ s.rx.length) (w : List Byte) :
    headLen (s.setRx (s.rx ++ w)) = headLen s :=
  congrArg BitVec.toNat (byteAt_append_left (Nat.lt_of_lt_of_le (offLen_lt_hl _) h) w)

/-- So is the end byte. -/
theorem headerOk_append (h : hl s.cfg.mode ≤ s.rx.length) (w : List Byte) :
    HeaderOk (s.setRx (s.rx ++ w)) ↔ HeaderOk s := by
  have endByte_eq : byteAt (s.rx ++ w) (hl s.cfg.mode - 1) = byteAt s.rx (hl s.cfg.mode - 1) :=
    byteAt_append_left (Nat.lt_of_lt_of_le (offEnd_lt_hl _) h) w
  have long : hl s.cfg.mode ≤ (s.rx ++ w).length := by rw [List.length_append]; omega
  simp only [HeaderOk, setRx_cfg, setRx_rx, endByte_eq, long, h]

theorem aligned_append (h : Aligned s) (w : List Byte) : Aligned (s.setRx (s.rx ++ w)) := by
  obtain ⟨ho, hhead⟩ := h
  refine ⟨ho, fun hs => ?_⟩
  rw [setRx_rx, List.head?_append, hhead hs]; rfl

/-! ### The stall -/

/-- POLL waits for a frame that RX cannot hold (R137). -/
theorem exec_poll_of_stalled (h : Stalled s) : exec .poll s = .next ((started s).respond (pollSays .noMessage)) := by
  obtain ⟨hal, hok, hadm, hfits, hlong⟩ := h
  have short : s.rx.length < headLen s + hl s.cfg.mode := by omega
  rw [exec_poll_of_aligned hal,
    assembleFrame_of_short_frame (headerOk_started.2 hok) (admitted_started.2 hadm) (by simpa using short)]

/-- Step 2 and the response touch nothing the stall speaks of. -/
theorem stalled_started (h : Stalled s) (r : Response) : Stalled ((started s).respond r) := by
  obtain ⟨a, e⟩ := started_eq_setAsm s
  rw [e]
  exact h

/-- A byte that arrives stands behind the header, or is lost. -/
theorem stalled_rxArrive (h : Stalled s) (b : Byte) : Stalled (rxArrive b s) := by
  by_cases room : s.rx.length < s.par.rxCap.toNat
  · obtain ⟨hal, hok, hadm, -, hlong⟩ := h
    have header : hl s.cfg.mode ≤ s.rx.length := hok.1
    have hfits : (s.rx ++ [b]).length ≤ s.par.rxCap.toNat := by simpa using room
    rw [rxArrive_of_room room]
    refine ⟨aligned_append hal [b], (headerOk_append header [b]).2 hok, ?_, hfits, ?_⟩
    · rw [headLen_append header]; exact hadm
    · rw [headLen_append header]; exact hlong
  · rwa [rxArrive_of_full (Nat.not_lt.1 room)]

end Sys2Proof.Machine

namespace Sys2Proof.Proofs

open Sys2Proof.Machine Sys2Proof.Claim

/-- Settles O35: taking the input leaves the stall, POLL waits in it, and an arriving byte goes behind the header. -/
theorem frameBeyondTheTransportStalls : Obligations.FrameBeyondTheTransportStalls := by
  intro s rest h
  have h' : Stalled (taken s rest) := h
  refine ⟨fun hi => ?poll, fun b hi => ?arrival⟩
  case poll =>
    obtain ⟨a, e⟩ := started_eq_setAsm (taken s rest)
    refine ⟨_, (step_poll hi).trans (exec_poll_of_stalled h'), rfl, ?_, ?_, stalled_started h' _⟩ <;> rw [e] <;> rfl
  case arrival =>
    have stalled := stalled_rxArrive h' b
    refine ⟨_, step_rxArrive hi, ?_, ?_, stalled⟩
    · obtain e | e := rxArrive_rx b (taken s rest) <;> rw [e] <;> simp
    · obtain ⟨-, -, -, hfits, -⟩ := stalled
      simpa using hfits

end Sys2Proof.Proofs
end

section
/-!
Runs over a list of inputs: line-agent lines (R82), and deliveries with a POLL after each group.
-/

namespace Sys2Proof.Machine

open Sys2Proof.Claim

/-- `k` steps of the machine. -/
abbrev run (k : Nat) (s : State) : Res State := Sys2Proof.core.run k s

variable {s t : State}

/-! ### Composing runs -/

theorem run_succ (k : Nat) (s : State) : run (k + 1) s = andThen (step s) (run k) := by
  refine (Host.Core.run.eq_2 Sys2Proof.core s k).trans ?_
  change _ = andThen (Sys2Proof.core.step s) _
  cases Sys2Proof.core.step s <;> rfl

theorem run_succ_of_step (k : Nat) (h : step s = .next t) : run (k + 1) s = run k t := by
  rw [run_succ, h, andThen_next]

theorem run_one (s : State) : run 1 s = step s := by
  rw [run_succ]
  cases step s <;> rfl

theorem run_add {j : Nat} (k : Nat) (h : run j s = .next t) : run (j + k) s = run k t := by
  induction j generalizing s with
  | zero => cases h; rw [Nat.zero_add]
  | succ j ih =>
    rw [run_succ] at h
    obtain ⟨u, hstep, hrun⟩ := andThen_eq_next h
    rw [Nat.succ_add, run_succ_of_step _ hstep, ih hrun]

/-- A step that takes an input does not see the response before it (log 4). -/
theorem step_setResp {i : Input} {rest : List Input} (hi : s.inputs = i :: rest) (q : Option Response) :
    step (s.setResp q) = step s := by
  rw [step_input hi, step_input (s := s.setResp q) hi]; rfl

/-- Nor does a run that begins with an input. -/
theorem run_setResp {i : Input} {rest : List Input} (hi : s.inputs = i :: rest) (q : Option Response) (k : Nat) :
    run (k + 1) (s.setResp q) = run (k + 1) s := by
  rw [run_succ, run_succ, step_setResp hi]

/-! ### Arrivals and drains -/

/-- An arrival does not see the inputs behind it. -/
theorem step_rxArrive_of_resp_none (hr : s.resp = none) (b : Byte) (rest : List Input) :
    step (s.setInputs (.rxArrive b :: rest)) = .next ((rxArrive b s).setInputs rest) := by
  have same : taken (s.setInputs (.rxArrive b :: rest)) rest = s.setInputs rest := by rw [taken, ← hr]; rfl
  rw [step_rxArrive rfl, same]
  by_cases room : s.rx.length < s.par.rxCap.toNat
  · rw [rxArrive_of_room (s := s.setInputs rest) room, rxArrive_of_room room]; rfl
  · rw [rxArrive_of_full (s := s.setInputs rest) (Nat.not_lt.1 room), rxArrive_of_full (Nat.not_lt.1 room)]

/-- Arrivals, one a step, fill RX in order as far as it has room. -/
theorem run_arrivals (hr : s.resp = none) (bs : List Byte) (rest : List Input) :
    run bs.length (s.setInputs (bs.map .rxArrive ++ rest))
      = .next ((s.setInputs rest).setRx (s.rx ++ bs.take (s.par.rxCap.toNat - s.rx.length))) := by
  induction bs generalizing s with
  | nil => rw [List.take_nil, List.append_nil]; rfl
  | cons b bs ih =>
    rw [List.map_cons, List.cons_append, List.length_cons, run_succ_of_step _ (step_rxArrive_of_resp_none hr b _),
      ih (by rw [rxArrive_resp, hr])]
    by_cases room : s.rx.length < s.par.rxCap.toNat
    · obtain ⟨n, hn⟩ : ∃ n, s.par.rxCap.toNat - s.rx.length = n + 1 := ⟨s.par.rxCap.toNat - s.rx.length - 1, by omega⟩
      have hn' : s.par.rxCap.toNat - (s.rx.length + 1) = n := by omega
      rw [rxArrive_of_room room, hn]
      simp [hn']; rfl
    · rw [rxArrive_of_full (Nat.not_lt.1 room), Nat.sub_eq_zero_of_le (Nat.not_lt.1 room)]; rfl

/-- Drains, one a step, take the head of TX each. -/
theorem run_drains (hr : s.resp = none) (n : Nat) (rest : List Input) :
    run n (s.setInputs (List.replicate n .txDrain ++ rest)) = .next ((s.setInputs rest).setTx (s.tx.drop n)) := by
  induction n generalizing s with
  | zero => rfl
  | succ n ih =>
    have first : step (s.setInputs (.txDrain :: (List.replicate n .txDrain ++ rest)))
        = .next ((txDrain s).setInputs (List.replicate n .txDrain ++ rest)) := by
      rw [step_txDrain rfl, taken, ← hr]; rfl
    rw [List.replicate_succ, List.cons_append, run_succ_of_step _ first, ih (s := txDrain s) hr]
    rw [txDrain, setTx_tx, List.drop_tail]; rfl

/-! ### Deliveries -/

theorem deliveries_cons (g : List Byte) (gs : List (List Byte)) :
    deliveries (g :: gs) = g.map Input.rxArrive ++ pollInput :: deliveries gs := by
  simp [deliveries]

theorem deliveries_append (gs hs : List (List Byte)) : deliveries (gs ++ hs) = deliveries gs ++ deliveries hs :=
  List.flatMap_append

/-- A group that RX has room for, and the POLL after it, are that POLL with the group in RX. -/
theorem run_delivery {g : List Byte} (room : s.rx.length + g.length ≤ s.par.rxCap.toNat) (rest : List Input) :
    run (g.length + 1) (s.setInputs (g.map .rxArrive ++ pollInput :: rest))
      = exec .poll ((taken s rest).setRx (s.rx ++ g)) := by
  obtain ⟨i, more, hi⟩ : ∃ i more, g.map Input.rxArrive ++ pollInput :: rest = i :: more :=
    List.exists_cons_of_ne_nil (by simp)
  have arrive := run_arrivals (s := s.setResp none) rfl g (pollInput :: rest)
  rw [setResp_rx, setResp_par, List.take_of_length_le (by omega)] at arrive
  rw [← run_setResp (s := s.setInputs _) hi none]
  exact (run_add 1 arrive).trans ((run_one _).trans (step_poll rfl))

end Sys2Proof.Machine

namespace Sys2Proof.Proofs

open Sys2Proof.Machine Sys2Proof.Claim

/-- Settles O59: `run_arrivals` and `run_drains`, which begin with an input and so do not see the response before. -/
theorem lineAgentLines : Obligations.LineAgentLines := by
  intro s
  refine ⟨fun bs hfits hne => ?arrivals, fun n hn hle => ?drains⟩
  case arrivals =>
    obtain ⟨b, bs, rfl⟩ := List.exists_cons_of_ne_nil hne
    have lines := run_arrivals (s := s.setResp none) rfl (b :: bs) []
    rw [List.append_nil] at lines
    rw [runAll, AsmLine.inputs, List.length_map]
    exact (run_setResp (s := s.setInputs ((b :: bs).map .rxArrive)) rfl none bs.length).symm.trans lines
  case drains =>
    obtain ⟨n, rfl⟩ := Nat.exists_eq_succ_of_ne_zero (Nat.ne_of_gt hn)
    have lines := run_drains (s := s.setResp none) rfl (n + 1) []
    rw [List.append_nil] at lines
    rw [runAll, AsmLine.inputs, List.length_replicate]
    exact (run_setResp (s := s.setInputs (List.replicate (n + 1) .txDrain)) rfl none n).symm.trans lines

/-- Settles O60: SEND leaves exactly the message's frame in TX; delivered, it is the whole RX of the other session, whose
POLL then consumes it (`exec_poll_of_message`) and dispatches it to the application. -/
theorem sentMessageIsReceived : Obligations.SentMessageIsReceived := by
  intro a b i f p hoA hadmA htx hroomA hoB hmode hidle hrx hw hadmB hcap hroomB h7
  have sends : exec (.send i f p) a = .next ((a.setTx (a.tx ++ encodeMessage a.cfg.mode i f p)).respond (.plain .ok)) := by
    rw [exec_send_of_admitted hoA hadmA, if_neg]
    rw [encodeMessage_length, State.txFree, htx, List.length_nil]
    omega
  have tx : ((a.setTx (a.tx ++ encodeMessage a.cfg.mode i f p)).respond (.plain .ok)).tx
      = encodeMessage b.cfg.mode i f p := by
    rw [htx, hmode]; rfl
  have h0 : i ≠ 0x0000#16 := fun e => by rw [e] at h7; exact absurd h7 (by decide)
  have delivered := run_delivery (s := b) (g := encodeMessage b.cfg.mode i f p)
    (by rw [hrx, encodeMessage_length, List.length_nil]; omega) []
  have polled := exec_poll_of_message (s := (taken b []).setRx (b.rx ++ encodeMessage b.cfg.mode i f p)) (junk := [])
    (rest := []) (f := f) (i := i) (p := p) hoB hw (.inl rfl) hadmB hcap (by rw [hrx, List.append_nil]; rfl)
  rw [frameResult_of_ne_zero _ _ h0] at polled
  obtain ⟨-, hresp⟩ := dispatchResult_of_application (r := ⟨i, f, len8 p, p⟩) h7
    (consumed b.cfg.mode i f p (((taken b []).setRx (b.rx ++ encodeMessage b.cfg.mode i f p)).setRx []))
  refine ⟨_, _, sends, rfl, (?received : _ = _).trans polled, dispatchResult_rx _ _, _, hresp⟩
  rw [tx, runAll, deliveries_cons, List.length_append, List.length_map]
  exact delivered

end Sys2Proof.Proofs
end

section
/-!
A frame that arrives in parts (R142): what a POLL leaves while the frame is not whole, and that nothing is lost by it.
-/

namespace Sys2Proof.Machine

open Sys2Proof.Claim

variable {s : State} {i : Half} {f : Byte} {p : List Byte}

/-! ### A partial frame at the head of RX -/

/-- In a start-byte Mode a part of a frame that has a byte begins with the start byte. -/
theorem head_of_partial_frame {m : Mode} {y z : List Byte} (hyz : y ++ z = encodeMessage m i f p) (hs : hasStart m = true)
    (hy : y ≠ []) : y.head? = some startByte := by
  obtain ⟨tail, e⟩ := frameBytes_head hs f i (checksum p) p
  obtain ⟨b, y, rfl⟩ := List.exists_cons_of_ne_nil hy
  rw [encodeMessage, e] at hyz
  rw [(List.cons.inj hyz).1]; rfl

/-- POLL waits for the rest of an admitted frame (R134, R137). -/
theorem exec_poll_of_partial_frame {z : List Byte} (ho : s.cfg.opened = true) (hadm : Admitted s p.length)
    (hyz : s.rx ++ z = encodeMessage s.cfg.mode i f p) (hz : z ≠ []) (hy : hasStart s.cfg.mode = true → s.rx ≠ []) :
    exec .poll s = .next ((started s).respond (pollSays .noMessage)) := by
  have hal : Aligned s := ⟨ho, fun hs => head_of_partial_frame hyz hs (hy hs)⟩
  rw [exec_poll_of_aligned hal]
  by_cases header : hl s.cfg.mode ≤ s.rx.length
  · have whole : (s.setRx (s.rx ++ z)).rx = frameBytes s.cfg.mode f i (checksum p) p ++ [] := by
      rw [List.append_nil]; exact hyz
    have hok : HeaderOk s := (headerOk_append header z).1 (headerOk_of_frame whole)
    have hlen : headLen s = p.length := by
      rw [← headLen_append header z, headLen_of_frame whole (fitsU8_of_admitted hadm)]
    have short : s.rx.length < headLen s + hl s.cfg.mode := by
      have total := congrArg List.length hyz
      have rest := List.length_pos_iff.2 hz
      rw [List.length_append, encodeMessage_length] at total
      omega
    exact assembleFrame_of_short_frame (headerOk_started.2 hok) (admitted_started.2 (by rwa [hlen])) (by simpa using short)
  · exact assembleFrame_of_short_header (by simpa using header)

/-! ### A partial stream: junk, then a frame -/

/-- What a session that was Idle with RX empty is once it has polled a part `x` of a stream, the response aside: the junk is
gone, and `asm` is Syncing from the start byte on. -/
def awaiting (s : State) (junk x : List Byte) : State :=
  (s.setRx (x.drop junk.length)).setAsm
    (if hasStart s.cfg.mode = true ∧ junk.length < x.length then .syncing else .idle)

/-- Before the first byte nothing is awaited. -/
theorem awaiting_nil (hi : s.asm = .idle) (hrx : s.rx = []) (junk : List Byte) : awaiting s junk [] = s := by
  rw [awaiting, List.drop_nil, if_neg (fun ⟨_, h⟩ => absurd h (by simp)), ← hi, ← hrx]; rfl

section Stream

variable {junk x w : List Byte} (ho : s.cfg.opened = true) (hi : s.asm = .idle) (hj : Junk s junk)
  (hx : x ++ w = junk ++ encodeMessage s.cfg.mode i f p)
include hj hx

/-- A part of a stream is junk that a scan discards, or all of the junk and a part of the frame. -/
theorem partial_stream_cases :
    (hasStart s.cfg.mode = true ∧ x.length ≤ junk.length ∧ ∀ b ∈ x, b ≠ startByte)
    ∨ ∃ y, x = junk ++ y ∧ y ++ w = encodeMessage s.cfg.mode i f p ∧ (hasStart s.cfg.mode = true → y ≠ []) := by
  have junkPrefix : junk <+: x ++ w := hx ▸ List.prefix_append _ _
  by_cases inJunk : hasStart s.cfg.mode = true ∧ x.length ≤ junk.length
  · obtain ⟨hs, hle⟩ := inJunk
    have sub : x <+: junk := List.prefix_of_prefix_length_le (List.prefix_append x w) junkPrefix hle
    refine .inl ⟨hs, hle, fun b hb => ?_⟩
    obtain rfl | ⟨-, -, hjunk⟩ := hj
    · exact absurd (sub.subset hb) (List.not_mem_nil)
    · exact hjunk b (sub.subset hb)
  · have hle : junk.length ≤ x.length := by
      obtain rfl | ⟨hs, -, -⟩ := hj
      · exact Nat.zero_le _
      · exact Nat.le_of_not_le fun h => inJunk ⟨hs, h⟩
    obtain ⟨y, rfl⟩ := List.prefix_of_prefix_length_le junkPrefix (List.prefix_append x w) hle
    rw [List.append_assoc] at hx
    refine .inr ⟨y, rfl, List.append_cancel_left hx, fun hs hy => inJunk ⟨hs, ?_⟩⟩
    rw [hy, List.append_nil]

include ho hi

/-- POLL on a part of the stream waits for the rest (R133, R134, R137). -/
theorem exec_poll_of_partial_stream (hadm : Admitted s p.length) (hw : w ≠ []) :
    exec .poll (s.setRx x) = .next ((awaiting s junk x).respond (pollSays .noMessage)) := by
  obtain ⟨hs, hle, hnone⟩ | ⟨y, rfl, hyw, hy⟩ := partial_stream_cases hj hx
  · have left : awaiting s junk x = s.setRx [] := by
      rw [awaiting, List.drop_eq_nil_of_le hle, if_neg fun ⟨_, h⟩ => Nat.not_lt.2 hle h, ← hi]; rfl
    rw [exec_poll_of_scanned_nil (s := s.setRx x) ho hs hi (scanned_eq_nil hnone), left]; rfl
  · have left : awaiting s junk (junk ++ y) = started (s.setRx y) := by
      rw [awaiting, List.drop_left, started, setRx_cfg]
      by_cases hs : hasStart s.cfg.mode = true
      · have pos := List.length_pos_iff.2 (hy hs)
        rw [if_pos ⟨hs, by rw [List.length_append]; omega⟩, if_pos hs]
      · rw [if_neg fun ⟨h, _⟩ => hs h, if_neg hs, ← hi]; rfl
    rw [exec_poll_of_junk (s := s.setRx (junk ++ y)) ho hj rfl, left]
    exact exec_poll_of_partial_frame (s := s.setRx y) ho hadm hyw hw hy

/-- What the wait left and what arrives next are to POLL what they would have been together: the junk was lost to it
anyway, and Syncing at the start byte is as good as Idle (R27). -/
theorem exec_poll_of_awaiting (g : List Byte) :
    exec .poll ((awaiting s junk x).setRx ((awaiting s junk x).rx ++ g)) = exec .poll (s.setRx (x ++ g)) := by
  obtain ⟨hs, hle, hnone⟩ | ⟨y, rfl, hyw, hy⟩ := partial_stream_cases hj hx
  · rw [exec_poll_of_junk (s := s.setRx (x ++ g)) ho (.inr ⟨hs, hi, hnone⟩) rfl, awaiting, List.drop_eq_nil_of_le hle,
      if_neg fun ⟨_, h⟩ => Nat.not_lt.2 hle h, ← hi]
    rfl
  · have together : exec .poll (s.setRx (junk ++ y ++ g)) = exec .poll (s.setRx (y ++ g)) :=
      exec_poll_of_junk (s := s.setRx (junk ++ y ++ g)) ho hj (List.append_assoc _ _ _)
    rw [together, awaiting, List.drop_left]
    by_cases hs : hasStart s.cfg.mode = true
    · have hal : Aligned (s.setRx (y ++ g)) :=
        aligned_append (s := s.setRx y) ⟨ho, fun hs => head_of_partial_frame hyw hs (hy hs)⟩ g
      exact exec_poll_setAsm_of_aligned hal hs _
    · rw [if_neg fun ⟨h, _⟩ => hs h, ← hi]; rfl

end Stream

/-! ### Deliveries of a part of the stream -/

section Deliveries

variable {junk w : List Byte} (ho : s.cfg.opened = true) (hi : s.asm = .idle) (hj : Junk s junk)
  (hcap : (junk ++ encodeMessage s.cfg.mode i f p).length ≤ s.par.rxCap.toNat)
include ho hi hj hcap

/-- A group delivered to a waiting session, and the POLL after it, are the POLL on all that has arrived since it was Idle
with RX empty. -/
theorem run_delivery_to_awaiting {x g : List Byte} (hx : x ++ (g ++ w) = junk ++ encodeMessage s.cfg.mode i f p)
    (q : Option Response) (rest : List Input) :
    run (g.length + 1) (((awaiting s junk x).setResp q).setInputs (g.map .rxArrive ++ pollInput :: rest))
      = exec .poll ((taken s rest).setRx (x ++ g)) := by
  have room : (awaiting s junk x).rx.length + g.length ≤ s.par.rxCap.toNat := by
    have total := congrArg List.length hx
    have dropped : (awaiting s junk x).rx.length ≤ x.length := (List.drop_sublist _ _).length_le
    rw [List.length_append, List.length_append] at total
    omega
  rw [run_delivery (s := (awaiting s junk x).setResp q) room]
  exact exec_poll_of_awaiting (s := taken s rest) ho hi hj hx g

/-- The group that completes the stream. -/
theorem run_last_delivery {x g : List Byte} (hx : x ++ g = junk ++ encodeMessage s.cfg.mode i f p) (q : Option Response) :
    run (deliveries [g]).length (((awaiting s junk x).setResp q).setInputs (deliveries [g]))
      = exec .poll ((taken s []).setRx (junk ++ encodeMessage s.cfg.mode i f p)) := by
  have last := run_delivery_to_awaiting (x := x) (g := g) (w := []) ho hi hj hcap (by rw [List.append_nil, hx]) q []
  rw [deliveries_cons, List.length_append, List.length_map, ← hx]
  exact last

/-- Groups that make up a part of the stream, with a POLL after each: the session waits, and says so after each. -/
theorem run_deliveries_to_awaiting (hadm : Admitted s p.length) (hw : w ≠ []) (gs : List (List Byte)) {x : List Byte}
    (hx : x ++ (gs.flatten ++ w) = junk ++ encodeMessage s.cfg.mode i f p) (q : Option Response) (rest : List Input) :
    run (deliveries gs).length (((awaiting s junk x).setResp q).setInputs (deliveries gs ++ rest))
      = .next (((awaiting s junk (x ++ gs.flatten)).setResp (if gs = [] then q else some (pollSays .noMessage))).setInputs
          rest) := by
  induction gs generalizing x q with
  | nil => rw [List.flatten_nil, List.append_nil, if_pos rfl]; rfl
  | cons g gs ih =>
    rw [List.flatten_cons, List.append_assoc] at hx
    have hw' : gs.flatten ++ w ≠ [] := by simp [hw]
    have hxg : (x ++ g) ++ (gs.flatten ++ w) = junk ++ encodeMessage s.cfg.mode i f p := by rw [List.append_assoc, hx]
    have waits : run (g.length + 1)
        (((awaiting s junk x).setResp q).setInputs (g.map .rxArrive ++ pollInput :: (deliveries gs ++ rest)))
        = .next (((awaiting s junk (x ++ g)).setResp (some (pollSays .noMessage))).setInputs (deliveries gs ++ rest)) :=
      (run_delivery_to_awaiting ho hi hj hcap hx q _).trans
        (exec_poll_of_partial_stream (s := taken s (deliveries gs ++ rest)) ho hi hj hxg hadm hw')
    have steps : (deliveries (g :: gs)).length = (g.length + 1) + (deliveries gs).length := by
      rw [deliveries_cons, List.length_append, List.length_map, List.length_cons]; omega
    have inputs : deliveries (g :: gs) ++ rest = g.map .rxArrive ++ pollInput :: (deliveries gs ++ rest) := by
      rw [deliveries_cons, List.append_assoc, List.cons_append]
    have resp : (if gs = [] then some (pollSays .noMessage) else some (pollSays .noMessage)) = some (pollSays .noMessage) :=
      ite_self _
    rw [steps, inputs, run_add _ waits, ih hxg, List.flatten_cons, List.append_assoc, resp, if_neg (List.cons_ne_nil _ _)]

end Deliveries

end Sys2Proof.Machine

namespace Sys2Proof.Proofs

open Sys2Proof.Machine Sys2Proof.Claim

/-- Settles O31: after each group but the last the session is `awaiting`, and the last POLL is, in both deliveries, the POLL
on the whole stream (`run_delivery_to_awaiting`). -/
theorem partialDelivery : Obligations.PartialDelivery := by
  intro s junk i f p groups last ho hi hrx hw hj hadm hcap stream hfits hsplit hlast
  have fresh : s = (awaiting s junk []).setResp s.resp := by rw [awaiting_nil hi hrx]; rfl
  have whole : exec .poll ((taken s []).setRx stream)
      = .next (frameResult s.cfg.mode f i (checksum p) p (((taken s []).setRx stream).setRx [])) :=
    exec_poll_of_message (s := (taken s []).setRx stream) ho hw hj hadm hcap (List.append_nil _).symm
  refine ⟨⟨_, (?parts : _ = _).trans whole, (?once : _ = _).trans whole⟩, fun n hn hle => ?waiting⟩
  case parts =>
    have before := run_deliveries_to_awaiting (x := []) ho hi hj hfits hadm hlast groups hsplit s.resp (deliveries [last])
    rw [← fresh, List.nil_append] at before
    rw [runAll, deliveries_append, List.length_append]
    exact (run_add _ before).trans (run_last_delivery ho hi hj hfits hsplit _)
  case once =>
    have all := run_last_delivery (x := []) (g := stream) ho hi hj hfits (List.nil_append _) s.resp
    rw [← fresh] at all
    exact all
  case waiting =>
    have hrest : (groups.drop n).flatten ++ last ≠ [] := by simp [hlast]
    have parts : (groups.take n).flatten ++ ((groups.drop n).flatten ++ last) = stream := by
      rw [← List.append_assoc, ← List.flatten_append, List.take_append_drop, hsplit]
    have nonempty : groups.take n ≠ [] := by
      intro e
      have := congrArg List.length e
      rw [List.length_take, List.length_nil] at this
      omega
    have waits := run_deliveries_to_awaiting (x := []) ho hi hj hfits hadm hrest (groups.take n) parts s.resp []
    rw [← fresh, List.append_nil, if_neg nonempty, List.nil_append] at waits
    exact ⟨_, waits, rfl, rfl, rfl⟩

end Sys2Proof.Proofs
end

section
/-!
Recovery after an oversize frame in FULL (R144): each start byte in it costs one POLL, and no byte after it is lost.
-/

namespace Sys2Proof.Machine

open Sys2Proof.Claim

variable {s : State}

/-! ### The frame's result -/

/-- Dispatch does not see the last response. -/
theorem dispatchResult_setResp (r : Message) (s : State) (q : Option Response) :
    dispatchResult r (s.setResp q) = dispatchResult r s := by
  have same : afterAck r (s.setResp q) = afterAck r s := rfl
  simp only [dispatchResult, same]
  split_ifs <;> rfl

/-- Nor does a consumed frame. -/
theorem frameResult_setResp (m : Mode) (f : Byte) (i c : Half) (p : List Byte) (s : State) (q : Option Response) :
    frameResult m f i c p (s.setResp q) = frameResult m f i c p s := by
  simp only [frameResult]
  split_ifs
  · rfl
  · rfl
  · exact dispatchResult_setResp ⟨i, f, len8 p, p⟩
      ((s.setFb (Memory.writeBytes s.fb 0 (frameBytes m f i c p))).setAsm .idle) q

/-! ### False starts -/

/-- No start byte in `u`, with `frame` behind it, has an end byte where a FULL header has it. -/
def NoFalseStart (u frame : List Byte) : Prop :=
  ∀ k, k < u.length → byteAt u k = startByte → byteAt (u ++ frame) (k + 7) ≠ endByte

/-- A tail of such bytes has none either. -/
theorem noFalseStart_of_append {a u frame : List Byte} (h : NoFalseStart (a ++ u) frame) : NoFalseStart u frame := by
  intro k hk hstart
  have skip : ∀ (v : List Byte) (n : Nat), byteAt (a ++ v) (a.length + n) = byteAt v n := fun v n => by
    rw [byteAt_append_right (by omega), Nat.add_sub_cancel_left]
  have := h (a.length + k) (by rw [List.length_append]; omega) (by rwa [skip])
  rwa [List.append_assoc, Nat.add_assoc, skip] at this

/-- POLL in FULL on bytes that hold a start byte which begins no header: it discards them through that byte, MISALIGNED. -/
theorem exec_poll_of_falseStart {junk v frame rest : List Byte} (ho : s.cfg.opened = true) (hm : s.cfg.mode = .full)
    (hi : s.asm = .idle) (hjunk : ∀ b ∈ junk, b ≠ startByte) (hframe : 8 ≤ frame.length)
    (hfalse : NoFalseStart (junk ++ startByte :: v) frame) (hrx : s.rx = junk ++ startByte :: v ++ frame ++ rest) :
    exec .poll s = .next ((s.setRx (v ++ frame ++ rest)).respond (pollSays .misaligned)) := by
  have hs : hasStart s.cfg.mode = true := by rw [hm]; rfl
  have hhl : hl s.cfg.mode = 8 := by rw [hm]; rfl
  have skipped : s.rx = junk ++ (startByte :: v ++ frame ++ rest) := by rw [hrx]; simp
  have wrongEnd : byteAt (startByte :: v ++ frame ++ rest) 7 ≠ endByte := by
    have := noFalseStart_of_append hfalse 0 (by simp) rfl
    rwa [byteAt_append_left (by simp; omega)]
  have misaligned := Proofs.pollMisaligned (s.setRx (startByte :: v ++ frame ++ rest)) ⟨ho, fun _ => rfl⟩
    (by rw [setRx_cfg, hm]; rfl) (by rw [setRx_cfg, hhl, setRx_rx]; simp; omega) (by rw [setRx_cfg, hhl]; exact wrongEnd)
  rw [exec_poll_of_junk ho (.inr ⟨hs, hi, hjunk⟩) skipped, misaligned, ← hi]
  rfl

/-- One MISALIGNED POLL for each of the first `j` start bytes; what is left has the others. -/
theorem run_falseStarts {frame rest : List Byte} (ho : s.cfg.opened = true) (hm : s.cfg.mode = .full) (hi : s.asm = .idle)
    (hframe : 8 ≤ frame.length) (j : Nat) {u : List Byte} (hj : j ≤ u.count startByte) (hfalse : NoFalseStart u frame)
    (hrx : s.rx = u ++ frame ++ rest) (more : List Input) :
    ∃ u', u'.count startByte + j = u.count startByte ∧ NoFalseStart u' frame
      ∧ run j (s.setInputs (List.replicate j pollInput ++ more))
          = .next (((s.setRx (u' ++ frame ++ rest)).setInputs more).setResp
              (if j = 0 then s.resp else some (pollSays .misaligned))) := by
  induction j generalizing s u with
  | zero => exact ⟨u, rfl, hfalse, by rw [← hrx]; rfl⟩
  | succ j ih =>
    obtain ⟨junk, v, rfl, hnone⟩ := List.eq_append_cons_of_mem (List.count_pos_iff.1 (by omega : 0 < u.count startByte))
    have hjunk : ∀ b ∈ junk, b ≠ startByte := fun b hb e => hnone (e ▸ hb)
    have starts : (junk ++ startByte :: v).count startByte = v.count startByte + 1 := by
      rw [List.count_append, List.count_eq_zero.2 hnone, List.count_cons_self, Nat.zero_add]
    have tail : NoFalseStart v frame :=
      noFalseStart_of_append (a := junk ++ [startByte]) (by rwa [List.append_assoc, List.singleton_append])
    have first : step (s.setInputs (List.replicate (j + 1) pollInput ++ more))
        = .next (((s.setRx (v ++ frame ++ rest)).setResp (some (pollSays .misaligned))).setInputs
            (List.replicate j pollInput ++ more)) :=
      (step_poll rfl).trans
        (exec_poll_of_falseStart (s := taken s (List.replicate j pollInput ++ more)) ho hm hi hjunk hframe hfalse hrx)
    obtain ⟨u', hcount, hfalse', hrun⟩ := ih (s := (s.setRx (v ++ frame ++ rest)).setResp (some (pollSays .misaligned)))
      ho hm hi (u := v) (by omega) tail rfl
    refine ⟨u', by omega, hfalse', ?_⟩
    rw [run_succ_of_step _ first, hrun, if_neg (Nat.succ_ne_zero j), setResp_resp, ite_self]
    rfl

/-- The first POLL on an oversize frame (R136). -/
theorem exec_poll_of_oversize {g rest : List Byte} (ho : s.cfg.opened = true) (hm : s.cfg.mode = .full) (hlen : 8 ≤ g.length)
    (hstart : byteAt g 0 = startByte) (hend : byteAt g 7 = endByte) (hbig : ¬ Admitted s (byteAt g 1).toNat)
    (hi : s.asm = .idle) (hrx : s.rx = g ++ rest) :
    exec .poll s = .next ((s.setRx (g.tail ++ rest)).respond (pollSays .frameTooLarge)) := by
  have hhl : hl s.cfg.mode = 8 := by rw [hm]; rfl
  have hoff : offLen s.cfg.mode = 1 := by rw [hm]; rfl
  have nonempty : g ≠ [] := by rintro rfl; simp at hlen
  obtain ⟨b, g', rfl⟩ := List.exists_cons_of_ne_nil nonempty
  have hal : Aligned s := ⟨ho, fun _ => by rw [hrx, ← hstart]; rfl⟩
  have hok : HeaderOk s := by
    refine ⟨by rw [hhl, hrx, List.length_append]; omega, fun _ => ?_⟩
    rw [hhl, hrx, byteAt_append_left (by omega), hend]
  have head : headLen s = (byteAt (b :: g') 1).toNat := by rw [headLen, hoff, hrx, byteAt_append_left (by omega)]
  have oversize := Proofs.pollOversize s hal hok (by rw [head]; omega)
  rw [oversize, hrx, ← hi]
  rfl

theorem byteAt_tail (l : List Byte) (k : Nat) : byteAt l.tail k = byteAt l (k + 1) := by cases l <;> rfl

/-- Past its own start byte, a frame has no false start where none is at an offset from 1 up. -/
theorem noFalseStart_tail {g frame : List Byte} (hg : g ≠ [])
    (h : ∀ k, 1 ≤ k → k < g.length → byteAt g k = startByte → byteAt (g ++ frame) (k + 7) ≠ endByte) :
    NoFalseStart g.tail frame := by
  intro k hk hstart
  rw [List.length_tail] at hk
  rw [byteAt_tail] at hstart
  rw [← List.tail_append_of_ne_nil hg, byteAt_tail]
  exact h (k + 1) (by omega) (by omega) hstart

end Sys2Proof.Machine

namespace Sys2Proof.Proofs

open Sys2Proof.Machine Sys2Proof.Claim

/-- Settles O33: the first POLL is `exec_poll_of_oversize`, the next ones are `run_falseStarts`, and once no start byte is
left before the frame the last one consumes it (`exec_poll_of_message`). -/
theorem oversizeFrameThenRecovery : Obligations.OversizeFrameThenRecovery := by
  intro s g rest i f p ho hm hi hw hadm hcap hlen hstart hend hbig hfalse hrx c
  have hlong : 8 ≤ g.length := by omega
  have hg : g ≠ [] := List.ne_nil_of_length_pos (by omega)
  have hframe : 8 ≤ (encodeMessage .full i f p).length := by rw [encodeMessage_length]; exact Nat.le_add_right _ _
  have first : ∀ more, step (s.setInputs (pollInput :: more))
      = .next (((s.setRx (g.tail ++ encodeMessage .full i f p ++ rest)).setResp (some (pollSays .frameTooLarge))).setInputs
          more) := fun more => by
    rw [List.append_assoc] at hrx ⊢
    exact (step_poll rfl).trans (exec_poll_of_oversize (s := taken s more) ho hm hlong hstart hend hbig hi hrx)
  have recovering : ∀ (j : Nat) (more : List Input), j ≤ c → ∃ u : List Byte, u.count startByte + j = c
      ∧ run (j + 1) (s.setInputs (List.replicate (j + 1) pollInput ++ more))
          = .next (((s.setRx (u ++ encodeMessage .full i f p ++ rest)).setInputs more).setResp
              (some (pollSays (if j = 0 then .frameTooLarge else .misaligned)))) := by
    intro j more hj
    obtain ⟨u, hcount, -, hrun⟩ := run_falseStarts
      (s := (s.setRx (g.tail ++ encodeMessage .full i f p ++ rest)).setResp (some (pollSays .frameTooLarge)))
      ho hm hi hframe j hj (noFalseStart_tail hg hfalse) rfl more
    refine ⟨u, hcount, ?_⟩
    rw [List.replicate_succ, List.cons_append, run_succ_of_step _ (first _), hrun]
    split <;> rfl
  refine ⟨fun j hj => ?reports, ?frame⟩
  case reports =>
    obtain ⟨u, -, hrun⟩ := recovering j [] hj
    rw [List.append_nil] at hrun
    refine ⟨_, (?run : _ = _).trans hrun, rfl, rfl⟩
    rw [runAll, List.length_replicate]
  case frame =>
    obtain ⟨u, hcount, hrun⟩ := recovering c [pollInput] (Nat.le_refl c)
    have hjunk : ∀ b ∈ u, b ≠ startByte := fun b hb e => by
      have := List.count_pos_iff.2 (e ▸ hb)
      omega
    have hs : hasStart s.cfg.mode = true := by rw [hm]; rfl
    have consumes := exec_poll_of_message (s := (taken s []).setRx (u ++ encodeMessage .full i f p ++ rest)) ho hw
      (.inr ⟨hs, hi, hjunk⟩) hadm hcap (f := f) (i := i) (p := p) (rest := rest) (by rw [setRx_rx, setRx_cfg, taken_cfg, hm])
    rw [setRx_cfg, taken_cfg, hm] at consumes
    have inputs : List.replicate (c + 2) pollInput = List.replicate (c + 1) pollInput ++ [pollInput] := List.replicate_succ'
    rw [runAll, List.length_replicate, inputs]
    refine (run_add 1 hrun).trans ((run_one _).trans ((step_poll rfl).trans (consumes.trans ?_)))
    exact congrArg _ (frameResult_setResp .full f i (checksum p) p ((s.setInputs []).setRx rest) none)

end Sys2Proof.Proofs
end

section
/-!
Encoding what was decoded (R72, R76 to R80): each decoder answers only on the bytes of the instruction it answers with.
-/

namespace Sys2Proof.Machine

/-- The bytes are the encoding of the well-formed instruction `i` of format `f`. -/
def IsEncoding (f : Format) (bs : List Byte) (i : Instr) : Prop := encode i = bs ∧ i.wf = true ∧ i.format = f

/-! ### Length operands -/

/-- What follows a length operand is all of the rest (R80). -/
theorem map_takeExactly_eq_ok {n : Nat} {bs : List Byte} {k : List Byte → Instr} {i : Instr}
    (h : (takeExactly n bs).map k = .ok i) : i = k bs ∧ bs.length = n := by
  rw [takeExactly] at h
  split_ifs at h with short surplus
  · exact nomatch h
  · exact nomatch h
  · exact ⟨(Except.ok.inj h).symm, by omega⟩

theorem beBytes_be16 (a b : Byte) : beBytes (be16 a b) = [a, b] := by rw [beBytes, hiByte_be16, loByte_be16]

/-- A u16 length operand is the count it was read as. -/
theorem len16_of_length {p : List Byte} {l1 l0 : Byte} (h : p.length = (be16 l1 l0).toNat) : len16 p = [l1, l0] := by
  rw [len16, h, BitVec.ofNat_toNat, BitVec.setWidth_eq, beBytes_be16]

theorem fitsU16_of_length {p : List Byte} {l : Half} (h : p.length = l.toNat) : fitsU16 p := by
  have := l.isLt
  simp only [fitsU16]
  omega

/-- So is a u8 length operand. -/
theorem len8_of_length {p : List Byte} {l : Byte} (h : p.length = l.toNat) : len8 p = l := by
  rw [len8, h, BitVec.ofNat_toNat, BitVec.setWidth_eq]

theorem fitsU8_of_length {p : List Byte} {l : Byte} (h : p.length = l.toNat) : fitsU8 p := by
  have := l.isLt
  simp only [fitsU8]
  omega

/-! ### Commands -/

variable {i : Instr} {ops : List Byte}

theorem isEncoding_of_decodeOpen (h : decodeOpen ops = .ok i) : IsEncoding .command (0x01#8 :: ops) i := by
  unfold decodeOpen at h
  split at h
  · rename_i mm pp
    cases hm : modeOfByte mm with
    | none => rw [hm] at h; exact nomatch h
    | some m =>
      rw [hm] at h
      cases h
      exact ⟨by rw [encode, modeByte_of_modeOfByte hm], rfl, rfl⟩
  · exact nomatch h
  · exact nomatch h

theorem isEncoding_of_decodeSetBufferSize (h : decodeSetBufferSize ops = .ok i) :
    IsEncoding .command (0x02#8 :: ops) i := by
  unfold decodeSetBufferSize at h
  split at h
  · cases h
    exact ⟨by rw [encode, beBytes_be16], rfl, rfl⟩
  · exact nomatch h
  · exact nomatch h

/-- A command without operands has no bytes after its code. -/
theorem decodeBare_eq_ok {j : Instr} (h : decodeBare j ops = .ok i) : ops = [] ∧ i = j := by
  cases ops with
  | nil => exact ⟨rfl, (Except.ok.inj h).symm⟩
  | cons b bs => exact nomatch h

theorem isEncoding_of_decodeChecksum (h : decodeChecksum ops = .ok i) : IsEncoding .command (0x10#8 :: ops) i := by
  unfold decodeChecksum at h
  split at h
  · obtain ⟨rfl, hlen⟩ := map_takeExactly_eq_ok h
    exact ⟨by rw [encode, len16_of_length hlen]; rfl, decide_eq_true (fitsU16_of_length hlen), rfl⟩
  · exact nomatch h

theorem isEncoding_of_decodeEncode (h : decodeEncode ops = .ok i) : IsEncoding .command (0x11#8 :: ops) i := by
  unfold decodeEncode at h
  split at h
  · rename_i mm i1 i0 ff ll p
    cases hm : modeOfByte mm with
    | none => rw [hm] at h; exact nomatch h
    | some m =>
      rw [hm] at h
      obtain ⟨rfl, hlen⟩ := map_takeExactly_eq_ok h
      refine ⟨?_, decide_eq_true (fitsU8_of_length hlen), rfl⟩
      rw [encode, modeByte_of_modeOfByte hm, hiByte_be16, loByte_be16, len8_of_length hlen]; rfl
  · exact nomatch h

theorem isEncoding_of_decodeDecode (h : decodeDecode ops = .ok i) : IsEncoding .command (0x12#8 :: ops) i := by
  unfold decodeDecode at h
  split at h
  · rename_i mm l1 l0 b
    cases hm : modeOfByte mm with
    | none => rw [hm] at h; exact nomatch h
    | some m =>
      rw [hm] at h
      obtain ⟨rfl, hlen⟩ := map_takeExactly_eq_ok h
      refine ⟨?_, decide_eq_true (fitsU16_of_length hlen), rfl⟩
      rw [encode, modeByte_of_modeOfByte hm, len16_of_length hlen]; rfl
  · exact nomatch h

theorem isEncoding_of_decodeSend (h : decodeSend ops = .ok i) : IsEncoding .command (0x21#8 :: ops) i := by
  unfold decodeSend at h
  split at h
  · obtain ⟨rfl, hlen⟩ := map_takeExactly_eq_ok h
    refine ⟨?_, decide_eq_true (fitsU8_of_length hlen), rfl⟩
    rw [encode, hiByte_be16, loByte_be16, len8_of_length hlen]; rfl
  · exact nomatch h

theorem isEncoding_of_decodeCommand {bs : List Byte} (h : decodeCommand bs = .ok i) : IsEncoding .command bs i := by
  cases bs with
  | nil => exact nomatch h
  | cons c ops =>
    rw [decodeCommand] at h
    split_ifs at h with h01 h02 h03 h10 h11 h12 h20 h21
    · exact h01 ▸ isEncoding_of_decodeOpen h
    · exact h02 ▸ isEncoding_of_decodeSetBufferSize h
    · obtain ⟨rfl, rfl⟩ := decodeBare_eq_ok h
      exact ⟨by rw [encode, h03], rfl, rfl⟩
    · exact h10 ▸ isEncoding_of_decodeChecksum h
    · exact h11 ▸ isEncoding_of_decodeEncode h
    · exact h12 ▸ isEncoding_of_decodeDecode h
    · obtain ⟨rfl, rfl⟩ := decodeBare_eq_ok h
      exact ⟨by rw [encode, h20], rfl, rfl⟩
    · exact h21 ▸ isEncoding_of_decodeSend h
    · obtain ⟨rfl, rfl⟩ := decodeBare_eq_ok h
      have reserved : c ∉ commandCodes := by simp [commandCodes, h01, h02, h03, h10, h11, h12, h20, h21]
      exact ⟨rfl, by simpa [Instr.wf] using reserved, rfl⟩

/-! ### Frames -/

/-- The first bytes of a sequence, one by one. -/
theorem take_eq_map_byteAt {n : Nat} {bs : List Byte} (h : n ≤ bs.length) : bs.take n = (List.range n).map (byteAt bs) := by
  apply List.ext_getElem
  · simp [h]
  · intro k hk _
    have hlt : k < bs.length := by rw [List.length_take] at hk; omega
    simp [byteAt, hlt]

/-- A header's bytes and what follows it are the frame of their fields (R72), where start, end and length byte are right. -/
theorem frameBytes_of_header {m : Mode} {bs : List Byte} (h : hl m ≤ bs.length)
    (hstart : hasStart m = true → byteAt bs 0 = startByte) (hend : hasEnd m = true → byteAt bs (offEnd m) = endByte)
    (hlen : len8 (bs.drop (hl m)) = byteAt bs (offLen m)) :
    frameBytes m (byteAt bs (offFlags m)) (half16At bs (offId m)) (half16At bs (offCrc m)) (bs.drop (hl m)) = bs := by
  calc frameBytes m (byteAt bs (offFlags m)) (half16At bs (offId m)) (half16At bs (offCrc m)) (bs.drop (hl m))
      = (List.range (hl m)).map (byteAt bs) ++ bs.drop (hl m) := by
        rw [frameBytes, hlen, half16At, half16At, hiByte_be16, loByte_be16, hiByte_be16, loByte_be16]
        cases m with
        | full => rw [← hstart rfl, ← hend rfl]; rfl
        | startOnly => rw [← hstart rfl]; rfl
        | delimCrc => rfl
        | noCrc => rfl
    _ = bs := by rw [← take_eq_map_byteAt h, List.take_append_drop]

theorem frameInstr_wf {p : List Byte} (h : fitsU8 p) (m : Mode) (f : Byte) (d c : Half) :
    (frameInstr m f d c p).wf = true := by
  cases m <;> exact decide_eq_true h

theorem frameInstr_format (m : Mode) (f : Byte) (d c : Half) (p : List Byte) : (frameInstr m f d c p).format = .frame m := by
  cases m <;> rfl

theorem isEncoding_of_decodeFrame {m : Mode} {bs : List Byte} (h : decodeFrame m bs = .ok i) :
    IsEncoding (.frame m) bs i := by
  rw [decodeFrame] at h
  split_ifs at h with short noStart noEnd
  obtain ⟨rfl, hlen⟩ := map_takeExactly_eq_ok h
  refine ⟨?_, frameInstr_wf (fitsU8_of_length hlen) m _ _ _, frameInstr_format m _ _ _ _⟩
  rw [encode_frameInstr]
  exact frameBytes_of_header (Nat.not_lt.1 short) (by simpa using noStart) (by simpa using noEnd) (len8_of_length hlen)

/-! ### DataIds and flags -/

theorem isEncoding_decodeDataId (v : Half) : IsEncoding .dataId (beBytes v) (decodeDataId v) := by
  rw [decodeDataId]
  split_ifs with h0 h1 h2 h3 h4 h5 h6
  case neg =>
    have application : 7 ≤ v.toNat := by bv_omega
    exact ⟨rfl, decide_eq_true application, rfl⟩
  all_goals subst v; exact ⟨by decide, rfl, rfl⟩

theorem flagsWithAck_flagsHigh {f : Byte} (h : ackRequested f = true) : flagsWithAck (flagsHigh f) = f := by
  apply BitVec.eq_of_getLsbD_eq
  intro k hk
  rw [flagsWithAck, BitVec.getLsbD_append]
  by_cases hk0 : k < 1
  · obtain rfl : k = 0 := by omega
    simpa using h.symm
  · have up : 1 + (k - 1) = k := by omega
    have width : k - 1 < 7 := by omega
    simp [hk0, flagsHigh, up, width]

theorem isEncoding_of_decodeFlags {f : Byte} (h : decodeFlags f = .ok i) : IsEncoding .flags [f] i := by
  obtain ⟨hack, rfl⟩ := decodeFlags_eq_ok h
  exact ⟨by rw [encode, flagsWithAck_flagsHigh hack], rfl, rfl⟩

end Sys2Proof.Machine

namespace Sys2Proof.Proofs

open Sys2Proof.Machine

/-- Settles O2: in each format the decoder answers only on the encoding of its answer (`IsEncoding`). -/
theorem encodeOfDecodeIsTheBytes : Obligations.EncodeOfDecodeIsTheBytes := by
  intro format bs i h
  match format, bs with
  | .command, bs => exact isEncoding_of_decodeCommand h
  | .frame m, bs => exact isEncoding_of_decodeFrame h
  | .dataId, [b1, b0] =>
    cases h
    exact beBytes_be16 b1 b0 ▸ isEncoding_decodeDataId (be16 b1 b0)
  | .flags, [f] => exact isEncoding_of_decodeFlags h

end Sys2Proof.Proofs
end
